-- ==== Sys2Proof/Word.lean ====
section
/-! DEFINITION. The data of the engine: words, bytes, the four-word values of a bank and the
sixteen-byte blocks (`00_scope.md` R9, R10). -/

namespace Sys2Proof

/-- A word: 32 bits, unsigned (R9). -/
abbrev Word := BitVec 32

/-- A byte: 8 bits (R9). -/
abbrev Byte := BitVec 8

/-- Sixteen bytes, offset 0 first: a message block, the tag buffer TAG, the block buffer BLK (R6, R30, R37). -/
abbrev Block := Vector Byte 16

/-- A 128-bit value as four words; `w0` is X[0], the least-significant word, `w3` is X[3] (R10). -/
structure Quad where
  w0 : Word
  w1 : Word
  w2 : Word
  w3 : Word
  deriving DecidableEq, Repr

/-- The four-word value whose words are all 0. -/
def Quad.zero : Quad := ⟨0, 0, 0, 0⟩

/-- Sixteen bytes 0x00. -/
def Block.zero : Block := Vector.replicate 16 0

end Sys2Proof
end

