-- ==== Sys2Proof/Syntax.lean ====
section
/-! DEFINITION. The fourteen commands of `30_encoding.md` R77, one constructor per row of the opcode table,
with the operands of R76: a word index IDX, a tag length TL, a data word WDATA. A command that ignores WDATA
(R78) does not carry it. -/

namespace Sys2Proof

/-- A command with its operands. -/
inductive Instr where
  /-- NOP (R130) -/
  | nop
  /-- WRK i, w (R131) -/
  | wrk (i : Fin 4) (w : Word)
  /-- WRK1 i, w (R132) -/
  | wrk1 (i : Fin 4) (w : Word)
  /-- WRK2 i, w (R133) -/
  | wrk2 (i : Fin 4) (w : Word)
  /-- WRLEN n (R134) -/
  | wrlen (n : Word)
  /-- RDK1 i (R136) -/
  | rdk1 (i : Fin 4)
  /-- RDK2 i (R137) -/
  | rdk2 (i : Fin 4)
  /-- RDTAG i (R138) -/
  | rdtag (i : Fin 4)
  /-- RDSTAT (R139) -/
  | rdstat
  /-- RDCFG (R140) -/
  | rdcfg
  /-- RDLEN (R141) -/
  | rdlen
  /-- DERIVE (R95) -/
  | derive
  /-- MAC tl (R110); `tl` is a byte count, 0 to 255 in a well-formed command (R75) -/
  | mac (tl : Nat)
  /-- CLRERR (R142) -/
  | clrerr
  deriving DecidableEq, Repr

end Sys2Proof
end

