-- ==== Sys2Proof/WellFormed.lean ====
section
/-! DEFINITION. Which commands can be encoded (`30_encoding.md` R74 to R76, R82). A word index is a `Fin 4` and a
data word a 32-bit word, so the one operand with a range to check is the tag length of MAC. -/

namespace Sys2Proof

/-- The operands fit their fields: TL is an 8-bit field, 0 to 255 (R75, R82). A TL of 17 to 255 is well formed:
the command exists and raises InvalidArgument. -/
def Instr.wellFormed : Instr → Bool
  | .nop => true
  | .wrk _ _ => true
  | .wrk1 _ _ => true
  | .wrk2 _ _ => true
  | .wrlen _ => true
  | .rdk1 _ => true
  | .rdk2 _ => true
  | .rdtag _ => true
  | .rdstat => true
  | .rdcfg => true
  | .rdlen => true
  | .derive => true
  | .mac tl => decide (tl < 256)
  | .clrerr => true

/-- The commands that use WDATA (R70, R77): WRK, WRK1, WRK2, WRLEN. -/
def Instr.usesWdata : Instr → Bool
  | .nop => false
  | .wrk _ _ => true
  | .wrk1 _ _ => true
  | .wrk2 _ _ => true
  | .wrlen _ => true
  | .rdk1 _ => false
  | .rdk2 _ => false
  | .rdtag _ => false
  | .rdstat => false
  | .rdcfg => false
  | .rdlen => false
  | .derive => false
  | .mac _ => false
  | .clrerr => false

end Sys2Proof
end

