-- ==== Sys2Proof/Decode.lean ====
section
/-! DEFINITION. The decoder and the encoder of command words, from `30_encoding.md` R72 to R80. The decoder is total
on all pairs (CW, WDATA) and rejects by name; the encoder is written from the same table. -/

namespace Sys2Proof

/-- Why a command word is illegal (R152). All four raise the same IllegalCommand. -/
inductive Illegal where
  /-- an opcode that R80 reserves -/
  | reservedOpcode
  /-- a 1 in CW[23:8] -/
  | mbzNotZero
  /-- a non-zero ARG in a Z-format word -/
  | argNotZero
  /-- a 1 in ARG[7:2] of an X-format word -/
  | argHighNotZero
  deriving DecidableEq, Repr

/-- What the decoder answers. -/
inductive Decoded where
  | ok (i : Instr)
  | illegal (why : Illegal)
  deriving DecidableEq, Repr

/-- OPC = CW[31:24] (R72). -/
def opcField (cw : Word) : BitVec 8 := cw.extractLsb' 24 8

/-- MBZ = CW[23:8] (R72). -/
def mbzField (cw : Word) : BitVec 16 := cw.extractLsb' 8 16

/-- ARG = CW[7:0] (R72). -/
def argField (cw : Word) : BitVec 8 := cw.extractLsb' 0 8

/-- ARG[7:2], which an X-format word has zero (R74). -/
def argHighField (cw : Word) : BitVec 6 := cw.extractLsb' 2 6

/-- IDX = zext(CW[1:0]) (R76). -/
def idxField (cw : Word) : Fin 4 := (cw.extractLsb' 0 2).toFin

/-- A Z-format word: ARG must be zero (R73). -/
def decodeZ (cw : Word) (i : Instr) : Decoded :=
  if argField cw = 0 then .ok i else .illegal .argNotZero

/-- An X-format word: ARG[7:2] must be zero, ARG[1:0] is the index (R74). -/
def decodeX (cw : Word) (f : Fin 4 → Instr) : Decoded :=
  if argHighField cw = 0 then .ok (f (idxField cw)) else .illegal .argHighNotZero

/-- A T-format word: every value of ARG decodes (R75). -/
def decodeT (cw : Word) (f : Nat → Instr) : Decoded := .ok (f (argField cw).toNat)

/-- The decoder of R79, on a command word and its data operand. -/
def decode (cw wdata : Word) : Decoded :=
  if mbzField cw ≠ 0 then .illegal .mbzNotZero
  else
    match opcField cw with
    | 0x00#8 => decodeZ cw .nop
    | 0x01#8 => decodeX cw (fun i => .wrk i wdata)
    | 0x02#8 => decodeX cw (fun i => .wrk1 i wdata)
    | 0x03#8 => decodeX cw (fun i => .wrk2 i wdata)
    | 0x04#8 => decodeZ cw (.wrlen wdata)
    | 0x08#8 => decodeX cw .rdk1
    | 0x09#8 => decodeX cw .rdk2
    | 0x0A#8 => decodeX cw .rdtag
    | 0x0B#8 => decodeZ cw .rdstat
    | 0x0C#8 => decodeZ cw .rdcfg
    | 0x0D#8 => decodeZ cw .rdlen
    | 0x10#8 => decodeZ cw .derive
    | 0x11#8 => decodeT cw .mac
    | 0x1F#8 => decodeZ cw .clrerr
    | _ => .illegal .reservedOpcode

/-- One row of the opcode map of R77: a word `w` is the command iff `w &&& mask = match`. -/
structure OpcodeRow where
  mnemonic : String
  matchBits : Word
  maskBits : Word
  deriving DecidableEq, Repr

/-- The opcode map, rows as R77 lists them. -/
def opcodeMap : List OpcodeRow :=
  [⟨"NOP",    0x00000000, 0xFFFFFFFF⟩,
   ⟨"WRK",    0x01000000, 0xFFFFFFFC⟩,
   ⟨"WRK1",   0x02000000, 0xFFFFFFFC⟩,
   ⟨"WRK2",   0x03000000, 0xFFFFFFFC⟩,
   ⟨"WRLEN",  0x04000000, 0xFFFFFFFF⟩,
   ⟨"RDK1",   0x08000000, 0xFFFFFFFC⟩,
   ⟨"RDK2",   0x09000000, 0xFFFFFFFC⟩,
   ⟨"RDTAG",  0x0A000000, 0xFFFFFFFC⟩,
   ⟨"RDSTAT", 0x0B000000, 0xFFFFFFFF⟩,
   ⟨"RDCFG",  0x0C000000, 0xFFFFFFFF⟩,
   ⟨"RDLEN",  0x0D000000, 0xFFFFFFFF⟩,
   ⟨"DERIVE", 0x10000000, 0xFFFFFFFF⟩,
   ⟨"MAC",    0x11000000, 0xFFFFFF00⟩,
   ⟨"CLRERR", 0x1F000000, 0xFFFFFFFF⟩]

/-- A row matches a command word (R77). -/
def OpcodeRow.covers (r : OpcodeRow) (cw : Word) : Bool := cw &&& r.maskBits == r.matchBits

/-- The mnemonic of a command, as the opcode map spells it. -/
def Instr.mnemonic : Instr → String
  | .nop => "NOP"
  | .wrk _ _ => "WRK"
  | .wrk1 _ _ => "WRK1"
  | .wrk2 _ _ => "WRK2"
  | .wrlen _ => "WRLEN"
  | .rdk1 _ => "RDK1"
  | .rdk2 _ => "RDK2"
  | .rdtag _ => "RDTAG"
  | .rdstat => "RDSTAT"
  | .rdcfg => "RDCFG"
  | .rdlen => "RDLEN"
  | .derive => "DERIVE"
  | .mac _ => "MAC"
  | .clrerr => "CLRERR"

/-- A command word from its opcode and operand byte, MBZ zero (R72). -/
def commandWord (opc arg : BitVec 8) : Word := (opc.zeroExtend 32 <<< 24) ||| arg.zeroExtend 32

/-- The pair (CW, WDATA) of a command, WDATA 0 where the command ignores it (R77, R82). -/
def encode : Instr → Word × Word
  | .nop => (commandWord 0x00 0, 0)
  | .wrk i w => (commandWord 0x01 (BitVec.ofNat 8 i.val), w)
  | .wrk1 i w => (commandWord 0x02 (BitVec.ofNat 8 i.val), w)
  | .wrk2 i w => (commandWord 0x03 (BitVec.ofNat 8 i.val), w)
  | .wrlen n => (commandWord 0x04 0, n)
  | .rdk1 i => (commandWord 0x08 (BitVec.ofNat 8 i.val), 0)
  | .rdk2 i => (commandWord 0x09 (BitVec.ofNat 8 i.val), 0)
  | .rdtag i => (commandWord 0x0A (BitVec.ofNat 8 i.val), 0)
  | .rdstat => (commandWord 0x0B 0, 0)
  | .rdcfg => (commandWord 0x0C 0, 0)
  | .rdlen => (commandWord 0x0D 0, 0)
  | .derive => (commandWord 0x10 0, 0)
  | .mac tl => (commandWord 0x11 (BitVec.ofNat 8 tl), 0)
  | .clrerr => (commandWord 0x1F 0, 0)

/-- The 287 legal command words, counted in R79: 7 Z-format words, 6 * 4 X-format words, 256 T-format words. -/
def legalWords : List Word :=
  ([0x00, 0x04, 0x0B, 0x0C, 0x0D, 0x10, 0x1F].map fun opc => commandWord opc 0) ++
  ([0x01, 0x02, 0x03, 0x08, 0x09, 0x0A].flatMap fun opc => (List.range 4).map fun i => commandWord opc (BitVec.ofNat 8 i)) ++
  ((List.range 256).map fun tl => commandWord 0x11 (BitVec.ofNat 8 tl))

/-- The command word CW in a number that lists an instruction's bits, CW in bits 31..0 (log 7). -/
def tableCw (nbits w : Nat) : Word := BitVec.ofNat 32 (w % 2 ^ nbits)

/-- The data operand WDATA in the same number, bits 63..32, zero where `nbits` ends below them (log 7). -/
def tableWdata (nbits w : Nat) : Word := BitVec.ofNat 32 ((w % 2 ^ nbits) / 4294967296)

/-- The command the decoder reads from a number that lists its bits as spec/opcode_table.json numbers them. -/
def decodeTableWord (nbits w : Nat) : Option Instr :=
  match decode (tableCw nbits w) (tableWdata nbits w) with
  | .ok i => some i
  | .illegal _ => none

end Sys2Proof
end

