-- ==== Sys2Proof/Config.lean ====
section
/-! DEFINITION. The fixed quantities and the instance parameter of `00_scope.md` R6, R7. The rotation
amounts stand in `Machine/Permutation.lean`, where the round uses them. The open parameters PORT_BINDING,
MSG_BINDING and LATENCY (R8) have no definition here: no rule reads them. -/

namespace Sys2Proof.Config

/-- TAGMAX: the largest legal tag length, in bytes (R6). -/
def tagMax : Nat := 16

/-- BLOCKBYTES: bytes per message block (R6). -/
def blockBytes : Nat := 16

/-- PADBYTE: the first padding byte (R6, R104). -/
def padByte : Byte := 0x01

/-- CRED: the reduction constant of DOUBLE (R6, R90). -/
def cred : Word := 0x00000087

/-- The number of offsets of the message space MSG: offsets are unsigned 32-bit numbers (R50). -/
def msgSpace : Nat := 4294967296

/-- NROUNDS - 1 of the instance the spec instantiates, NROUNDS = 12 (R7). An instance's NROUNDS is 1 to 255,
so NROUNDS - 1 ranges over exactly the 255 values of `Fin 255`. -/
def defaultRoundsPred : Fin 255 := 11

end Sys2Proof.Config
end

