-- ==== Sys2Proof/Machine/State.lean ====
section
/-! DEFINITION. The state of one engine instance (`10_state.md` R20 to R40), the message space the host owns
(`20_memory.md` R50) and the two ends of the command port (`30_encoding.md` R70). -/

namespace Sys2Proof.Machine

/-- PH: the phase of the engine (R36). -/
inductive Phase where
  | idle
  | absorb
  | final
  | emit
  deriving DecidableEq, Repr

/-- The four fields of STATUS that are state (R31). Bits 3:2 and 31:13 are not storage and read as 0. -/
structure Status where
  /-- TAGV, bit 0 -/
  tagv : Bool
  /-- SKD, bit 1 -/
  skd : Bool
  /-- ERR, bits 7:4 -/
  err : BitVec 4
  /-- TLEN, bits 12:8 -/
  tlen : BitVec 5
  deriving DecidableEq, Repr

/-- The two outputs of a command (R70). -/
structure Response where
  resp : BitVec 4
  rdata : Word
  deriving DecidableEq, Repr

/-- What the host may do between two commands (R68): issue a command, fill its message buffer (R84), assert
reset (R170). -/
inductive HostMove where
  | command (cw wdata : Word)
  | message (bytes : List Byte)
  | reset
  deriving DecidableEq, Repr

/-- The machine: the engine's state (R20), and beside it what R41 keeps outside the engine and a step must read or
show: the message space, the host's moves to come and the response of the command just run (log 3, 4, 5). -/
structure State where
  /-- K, the key (R21) -/
  k : Quad
  /-- K1, Subkey1 (R22) -/
  k1 : Quad
  /-- K2, Subkey2 (R23) -/
  k2 : Quad
  /-- V, the permutation state (R24) -/
  v : Quad
  /-- MLEN, the declared message length in bytes (R27) -/
  mlen : Word
  /-- TAG, the tag buffer (R30) -/
  tag : Block
  /-- STATUS (R31) -/
  status : Status
  /-- CFG, as NROUNDS - 1: exactly the instances with NROUNDS in 1..255 (R7, R33; log 1, 2) -/
  nroundsPred : Fin 255
  /-- PH, the phase (R36) -/
  ph : Phase
  /-- POS, the offset of the first byte not yet absorbed (R36) -/
  pos : Word
  /-- TLAT, the tag length of the MAC in progress (R37) -/
  tlat : BitVec 5
  /-- BLK, the block being absorbed (R37) -/
  blk : Block
  /-- MSG, the host's message space: (offset, byte) cells, offsets rising; an unlisted offset has no byte (R50; log 5) -/
  msg : List Host.Cell
  /-- the host's moves still to come, the next one first (R68; log 3) -/
  host : List HostMove
  /-- RESP and RDATA of the command the last step ran, none where it ran none (R70; log 4) -/
  response : Option Response
  deriving DecidableEq, Repr

/-- Reasons to stop with a fault. There are none: the engine's two errors are completed commands with a response
(R150, R155, R159), and nothing else in the spec stops the machine (log 10). -/
inductive Fault where
  deriving DecidableEq, Repr

/-- Reasons a step has no meaning. -/
inductive Refusal where
  /-- raised by an arm of `exec` for a command without a meaning; no arm does so; safe -/
  | notModelled (mnemonic : String)
  /-- raised by the ABSORB and FINAL phases of a MAC at a message offset below MLEN where MSG holds no byte
  (R51, U1 of `93_implementation_defined.md`); safe: the launch has no meaning, no value is invented -/
  | messageTooShort (offset : Nat)
  deriving DecidableEq, Repr

/-- NROUNDS, the rounds per permutation call, 1 to 255 (R7). -/
def State.nrounds (s : State) : Nat := s.nroundsPred.val + 1

/-- STATUS after reset (R40). -/
def Status.reset : Status := { tagv := false, skd := false, err := 0, tlen := 0 }

/-- The machine right after reset: R40's table, for the instance with the default NROUNDS; no message byte is
readable, the host has no move to come and no command has responded (log 3, 4, 5). -/
def State.reset : State :=
  { k := Quad.zero, k1 := Quad.zero, k2 := Quad.zero, v := Quad.zero
    mlen := 0, tag := Block.zero, status := Status.reset
    nroundsPred := Config.defaultRoundsPred
    ph := .idle, pos := 0, tlat := 0, blk := Block.zero
    msg := [], host := [], response := none }

end Sys2Proof.Machine
end

