-- ==== Sys2Proof/Machine/Flags.lean ====
section
/-! DEFINITION. The STATUS and CFG registers: how each field changes (`10_state.md` R34) and how the registers read
(R31, R33, R139, R140). There are no arithmetic flags (R34). -/

namespace Sys2Proof.Machine

/-- The word RDSTAT returns (R139): TAGV in bit 0, SKD in bit 1, ERR in bits 7:4, TLEN in bits 12:8, the rest 0. -/
def statusWord (st : Status) : Word :=
  (BitVec.ofBool st.tagv).zeroExtend 32 ||| ((BitVec.ofBool st.skd).zeroExtend 32 <<< 1) |||
    (st.err.zeroExtend 32 <<< 4) ||| (st.tlen.zeroExtend 32 <<< 8)

/-- The word RDCFG returns (R33, R140): NROUNDS in bits 7:0, the rest 0. -/
def cfgWord (s : State) : Word := BitVec.ofNat 32 s.nrounds

/-- SKD <- 1, the effect of DERIVE (R34, R95). -/
def subkeysDerived (st : Status) : Status := { st with skd := true }

/-- SKD <- 0, the effect of a write of K, K1 or K2 (R34, R131 to R133). -/
def subkeysStale (st : Status) : Status := { st with skd := false }

/-- TAGV <- 0, the effect of INIT (R34, R111). -/
def tagPending (st : Status) : Status := { st with tagv := false }

/-- TLEN <- t and TAGV <- 1, the effect of EMIT (R34, R114). -/
def tagReady (t : BitVec 5) (st : Status) : Status := { st with tagv := true, tlen := t }

/-- TAGV <- 0 and TLEN <- 0, the effect of the InvalidArgument entry (R34, R156). -/
def tagWithdrawn (st : Status) : Status := { st with tagv := false, tlen := 0 }

/-- ERR <- c only where ERR = 0: the first error wins (R34, R155). -/
def errRecorded (c : BitVec 4) (st : Status) : Status := if st.err = 0 then { st with err := c } else st

/-- ERR <- 0, the effect of CLRERR (R34, R142). -/
def errCleared (st : Status) : Status := { st with err := 0 }

end Sys2Proof.Machine
end

