-- ==== Sys2Proof/Machine/Operands.lean ====
section
/-! DEFINITION. Operands and data views: a word of a bank by its index (`00_scope.md` R12, R76), the little-endian
views LE32, WORDS and BYTES (R12, R57), word-by-word exclusive or (R11). -/

namespace Sys2Proof.Machine

/-- X[i], a word of a four-word value (R12). -/
def wordAt (x : Quad) : Fin 4 → Word
  | 0 => x.w0
  | 1 => x.w1
  | 2 => x.w2
  | 3 => x.w3

/-- X[i] <- w, the other three words kept (R12, R131). -/
def withWord (x : Quad) (w : Word) : Fin 4 → Quad
  | 0 => { x with w0 := w }
  | 1 => { x with w1 := w }
  | 2 => { x with w2 := w }
  | 3 => { x with w3 := w }

/-- `A xor B` on four-word values, word by word (R11). -/
def xorQuad (a b : Quad) : Quad :=
  ⟨a.w0 ^^^ b.w0, a.w1 ^^^ b.w1, a.w2 ^^^ b.w2, a.w3 ^^^ b.w3⟩

/-- The 128-bit value X[0] + 2^32 X[1] + 2^64 X[2] + 2^96 X[3] (R10); the words do not overlap, so the sum is an or. -/
def value128 (x : Quad) : BitVec 128 :=
  x.w0.zeroExtend 128 ||| (x.w1.zeroExtend 128 <<< 32) ||| (x.w2.zeroExtend 128 <<< 64) |||
    (x.w3.zeroExtend 128 <<< 96)

/-- LE32(b0, b1, b2, b3) = b0 + 2^8 b1 + 2^16 b2 + 2^24 b3 (R12); the four bytes do not overlap, so the sum is an or. -/
def le32 (b0 b1 b2 b3 : Byte) : Word :=
  b0.zeroExtend 32 ||| (b1.zeroExtend 32 <<< 8) ||| (b2.zeroExtend 32 <<< 16) ||| (b3.zeroExtend 32 <<< 24)

/-- Word i of a block: LE32 of its bytes 4i .. 4i+3 (R12, R57, R58). -/
def blockWord (b : Block) : Fin 4 → Word
  | 0 => le32 b[0] b[1] b[2] b[3]
  | 1 => le32 b[4] b[5] b[6] b[7]
  | 2 => le32 b[8] b[9] b[10] b[11]
  | 3 => le32 b[12] b[13] b[14] b[15]

/-- WORDS(B): a block as four words (R12, R57(a), R102). -/
def words (b : Block) : Quad := ⟨blockWord b 0, blockWord b 1, blockWord b 2, blockWord b 3⟩

/-- Byte j of a word, j = 0 the least significant: (w >> 8j) mod 256 (R12). -/
def byteOf (w : Word) (j : Nat) : Byte := (w >>> (8 * j)).setWidth 8

/-- BYTES(X): the sixteen bytes of a four-word value, each word low byte first (R12, R57(b)). -/
def bytes (x : Quad) : Block :=
  #v[byteOf x.w0 0, byteOf x.w0 1, byteOf x.w0 2, byteOf x.w0 3,
     byteOf x.w1 0, byteOf x.w1 1, byteOf x.w1 2, byteOf x.w1 3,
     byteOf x.w2 0, byteOf x.w2 1, byteOf x.w2 2, byteOf x.w2 3,
     byteOf x.w3 0, byteOf x.w3 1, byteOf x.w3 2, byteOf x.w3 3]

/-- A byte sequence of length 16 as a block. -/
def blockOf (bs : List Byte) : Block := Vector.ofFn fun j => bs.getD j.val 0

/-- The first n bytes of a block, 0x00 at and beyond n (R30, R114, R116). -/
def keepFirst (n : Nat) (b : Block) : Block := Vector.ofFn fun j => if j.val < n then b[j.val] else 0

end Sys2Proof.Machine
end

