-- ==== Sys2Proof/Machine/Ops.lean ====
section
/-! DEFINITION. The operations the meanings share: the message space and the tag buffer (`20_memory.md` R50 to R55),
responding to a command (`00_scope.md` R12), error entry (`60_exceptions.md` R155, R156), and what a step does when the
host issues no command. -/

namespace Sys2Proof.Machine

/-- What a step answers. -/
abbrev Result := Host.Outcome State Fault Refusal

/-- The message space: cells in rising order of offset. -/
abbrev Memory := List Host.Cell

/-- Do `f` from the next state of a result; a stop stays. -/
def andThen (r : Result) (f : State → Result) : Result :=
  match r with
  | .next s => f s
  | .fault e => .fault e
  | .refused e => .refused e

/-- The canonical form of the message space from an offset on: offsets strictly rising, each within the 32-bit
offsets of R50. No byte is what an unlisted offset reads as, since an unlisted offset has none. -/
def wfFrom (lo : Nat) : Memory → Bool
  | [] => true
  | (a, _) :: rest => decide (lo ≤ a) && decide (a < Config.msgSpace) && wfFrom (a + 1) rest

/-- The canonical form of the message space. -/
def memoryWf (m : Memory) : Bool := wfFrom 0 m

/-- The message byte at an offset, none where MSG holds no byte there (R50; log 5). -/
def readByte : Memory → Nat → Option Byte
  | [], _ => none
  | (a, b) :: rest, x => if a = x then some b else readByte rest x

/-- MemRead(MSG, a, n): the n bytes at offsets a .. a+n-1, none where one of them does not exist (R52). -/
def memRead (m : Memory) (a : Nat) : Nat → Option (List Byte)
  | 0 => some []
  | n + 1 =>
    match readByte m a with
    | none => none
    | some b => (memRead m (a + 1) n).map (b :: ·)

/-- The first offset from a on, below a+n, where MSG holds no byte. -/
def firstMissing (m : Memory) (a : Nat) : Nat → Nat
  | 0 => a
  | n + 1 => if (readByte m a).isSome then firstMissing m (a + 1) n else a

/-- The cells of a byte sequence placed from offset a on. -/
def cellsFrom (a : Nat) : List Byte → Memory
  | [] => []
  | b :: rest => (a, b) :: cellsFrom (a + 1) rest

/-- The message space after the host placed exactly these bytes at offsets 0 .. n-1 (R84); offsets are 32-bit
numbers, so a byte beyond them has no place (R50; log 12). -/
def placeMessage (bs : List Byte) : Memory := cellsFrom 0 (bs.take Config.msgSpace)

/-- MemWrite(TAG, a, n, B): TAG[a+j] <- B[j] for j < n, where n is the length of B (R55). -/
def memWriteTag (tag : Block) (a : Nat) (bs : List Byte) : Block :=
  Vector.ofFn fun j => if a ≤ j.val then bs.getD (j.val - a) tag[j.val] else tag[j.val]

/-- respond(code, data): the command completes and the host sees RESP and RDATA (R12, R70). -/
def respond (code : BitVec 4) (data : Word) (s : State) : Result :=
  .next { s with response := some ⟨code, data⟩ }

/-- respond(OK, data), code 0 (R150). -/
def respondOk (data : Word) (s : State) : Result := respond 0 data s

/-- Cause code 1, InvalidArgument (R150, R151). -/
def invalidArgument : BitVec 4 := 1

/-- Cause code 2, IllegalCommand (R150, R152). -/
def illegalCommand : BitVec 4 := 2

/-- What the InvalidArgument entry does beside recording the error (R156): the tag and its flags are cleared. -/
def withdrawTag (s : State) : State := { s with tag := Block.zero, status := tagWithdrawn s.status }

/-- Error entry (R155): the first error is recorded, InvalidArgument also withdraws the tag, PH stays, and the
command completes with RESP = c and RDATA = 0. -/
def raiseError (c : BitVec 4) (s : State) : Result :=
  let recorded := { s with status := errRecorded c s.status }
  respond c 0 (if c = invalidArgument then withdrawTag recorded else recorded)

/-- The host has no move: the engine is idle and holds its state; the response of the last command is not held
(R165, R41; log 3, 4). -/
def idleStep (s : State) : Result := .next { s with response := none }

/-- The host fills its message buffer between two commands (R68, R84). No engine state changes. -/
def hostMessage (bs : List Byte) (s : State) : Result :=
  .next { s with msg := placeMessage bs, response := none }

/-- The host asserts reset between two commands (R170, R171): every state element of the engine takes its reset value,
CFG keeps NROUNDS, and the message and the host's moves are not the engine's (R41; log 8). -/
def hostReset (s : State) : Result :=
  .next { State.reset with nroundsPred := s.nroundsPred, msg := s.msg, host := s.host }

end Sys2Proof.Machine
end

