-- ==== Sys2Proof/Machine/HostAccess.lean ====
section
/-! DEFINITION. The twelve host access commands (`43_host_access.md` R130 to R142). Each completes in one step and
never touches V, PH, POS, TLAT, BLK, MSG or TAG (R135). -/

namespace Sys2Proof.Machine

/-- NOP (R130). -/
def execNop (s : State) : Result := respondOk 0 s

/-- WRK i, w (R131). -/
def execWrk (i : Fin 4) (w : Word) (s : State) : Result :=
  respondOk 0 { s with k := withWord s.k w i, status := subkeysStale s.status }

/-- WRK1 i, w (R132). -/
def execWrk1 (i : Fin 4) (w : Word) (s : State) : Result :=
  respondOk 0 { s with k1 := withWord s.k1 w i, status := subkeysStale s.status }

/-- WRK2 i, w (R133). -/
def execWrk2 (i : Fin 4) (w : Word) (s : State) : Result :=
  respondOk 0 { s with k2 := withWord s.k2 w i, status := subkeysStale s.status }

/-- WRLEN n (R134). -/
def execWrlen (n : Word) (s : State) : Result := respondOk 0 { s with mlen := n }

/-- RDK1 i (R136). -/
def execRdk1 (i : Fin 4) (s : State) : Result := respondOk (wordAt s.k1 i) s

/-- RDK2 i (R137). -/
def execRdk2 (i : Fin 4) (s : State) : Result := respondOk (wordAt s.k2 i) s

/-- RDTAG i (R138). -/
def execRdtag (i : Fin 4) (s : State) : Result := respondOk (blockWord s.tag i) s

/-- RDSTAT (R139). -/
def execRdstat (s : State) : Result := respondOk (statusWord s.status) s

/-- RDCFG (R140). -/
def execRdcfg (s : State) : Result := respondOk (cfgWord s) s

/-- RDLEN (R141). -/
def execRdlen (s : State) : Result := respondOk s.mlen s

/-- CLRERR (R142). -/
def execClrerr (s : State) : Result := respondOk 0 { s with status := errCleared s.status }

end Sys2Proof.Machine
end

