-- ==== Sys2Proof/Machine/Permutation.lean ====
section
/-! DEFINITION. The ARX permutation (`42_permutation.md` R120 to R124). The round is the spec's, which marks it
[from general knowledge, not in source] (G1, D15; log 9). -/

namespace Sys2Proof.Machine

/-- ROTL(a, n), for 1 <= n <= 31 (R11, R120). -/
def rotl (a : Word) (n : Nat) : Word := (a <<< n) ||| (a >>> (32 - n))

/-- Step 1 of the round: lines 1 to 4 of R122, on (v0, v1). -/
def mix01 (v : Quad) : Quad :=
  let v := { v with w0 := v.w0 + v.w1 }
  let v := { v with w1 := rotl v.w1 5 }
  let v := { v with w1 := v.w1 ^^^ v.w0 }
  { v with w0 := rotl v.w0 16 }

/-- Step 2 of the round: lines 5 to 7 of R122, on (v2, v3). -/
def mix23 (v : Quad) : Quad :=
  let v := { v with w2 := v.w2 + v.w3 }
  let v := { v with w3 := rotl v.w3 8 }
  { v with w3 := v.w3 ^^^ v.w2 }

/-- Step 3 of the round: lines 8 to 10 of R122, on (v0, v3). -/
def cross03 (v : Quad) : Quad :=
  let v := { v with w0 := v.w0 + v.w3 }
  let v := { v with w3 := rotl v.w3 13 }
  { v with w3 := v.w3 ^^^ v.w0 }

/-- Step 4 of the round: lines 11 to 14 of R122, on (v2, v1). -/
def cross21 (v : Quad) : Quad :=
  let v := { v with w2 := v.w2 + v.w1 }
  let v := { v with w1 := rotl v.w1 7 }
  let v := { v with w1 := v.w1 ^^^ v.w2 }
  { v with w2 := rotl v.w2 16 }

/-- ROUND(v): the fourteen assignments of R122 in their order. -/
def arxRound (v : Quad) : Quad := cross21 (cross03 (mix23 (mix01 v)))

/-- PERMUTE(v): n rounds (R124). Every round is the same function. -/
def permute : Nat → Quad → Quad
  | 0, v => v
  | n + 1, v => permute n (arxRound v)

/-- ROTR(a, n), the inverse of ROTL(a, n), for 1 <= n <= 31 (R125(c)). -/
def rotr (a : Word) (n : Nat) : Word := (a >>> n) ||| (a <<< (32 - n))

/-- The inverse round of R125(c): lines 14 to 1 undone in reverse. The engine never computes it. -/
def unround (v : Quad) : Quad :=
  let v := { v with w2 := rotr v.w2 16 }
  let v := { v with w1 := v.w1 ^^^ v.w2 }
  let v := { v with w1 := rotr v.w1 7 }
  let v := { v with w2 := v.w2 - v.w1 }
  let v := { v with w3 := v.w3 ^^^ v.w0 }
  let v := { v with w3 := rotr v.w3 13 }
  let v := { v with w0 := v.w0 - v.w3 }
  let v := { v with w3 := v.w3 ^^^ v.w2 }
  let v := { v with w3 := rotr v.w3 8 }
  let v := { v with w2 := v.w2 - v.w3 }
  let v := { v with w0 := rotr v.w0 16 }
  let v := { v with w1 := v.w1 ^^^ v.w0 }
  let v := { v with w1 := rotr v.w1 5 }
  { v with w0 := v.w0 - v.w1 }

/-- The inverse of PERMUTE with n rounds (R125(c)). -/
def unpermute : Nat → Quad → Quad
  | 0, v => v
  | n + 1, v => unround (unpermute n v)

end Sys2Proof.Machine
end

