-- ==== Sys2Proof/Machine/Mac.lean ====
section
/-! DEFINITION. The MAC Compressor (`41_mac_compressor.md` R100 to R118): the partition of the message, the phases
INIT, ABSORB, FINAL and EMIT, the MAC command, and the whole function MACF written without the hidden state. -/

namespace Sys2Proof.Machine

/-- NNF(mlen): the number of non-final blocks (R101). -/
def nnf (mlen : Nat) : Nat := if mlen = 0 then 0 else (mlen - 1) / Config.blockBytes

/-- FOFF(mlen): the offset of the last block (R101). -/
def foff (mlen : Nat) : Nat := Config.blockBytes * nnf mlen

/-- RLAST(mlen): the bytes in the last block, 0 to 16 (R101). -/
def rlast (mlen : Nat) : Nat := mlen - foff mlen

/-- A partial last block: the raw bytes, one 0x01, zeros (R104). -/
def padded (bs : List Byte) : List Byte :=
  bs ++ Config.padByte :: List.replicate (Config.blockBytes - 1 - bs.length) 0

/-- MLEN - POS, in unsigned arithmetic without wrap (R112; log 13). -/
def remaining (s : State) : Nat := s.mlen.toNat - s.pos.toNat

/-- The absorption of one block into a permutation state (R106). -/
def absorbInto (rounds : Nat) (v : Quad) (b : Block) : Quad := permute rounds (xorQuad v (words b))

/-- Finalisation and post-whitening of a permutation state with the last block and the selected subkey (R107, R108). -/
def finishInto (rounds : Nat) (v : Quad) (b : Block) (l : Quad) : Quad :=
  xorQuad (permute rounds (xorQuad (xorQuad v (words b)) l)) l

/-- INIT(tl) (R111). -/
def initPhase (tl : Nat) (s : State) : State :=
  { s with v := s.k, pos := 0, tlat := BitVec.ofNat 5 tl, status := tagPending s.status, ph := .absorb }

/-- ABSORB (R112). -/
def absorbPhase (s : State) : Result :=
  if remaining s > Config.blockBytes then
    match memRead s.msg s.pos.toNat Config.blockBytes with
    | none => .refused (.messageTooShort (firstMissing s.msg s.pos.toNat Config.blockBytes))
    | some bs => .next { s with
        blk := blockOf bs
        v := absorbInto s.nrounds s.v (blockOf bs)
        pos := s.pos + 16
        ph := .absorb }
  else .next { s with ph := .final }

/-- FINAL (R113): a full last block is raw and takes K1, any other is padded and takes K2. -/
def finalPhase (s : State) : Result :=
  match memRead s.msg s.pos.toNat (remaining s) with
  | none => .refused (.messageTooShort (firstMissing s.msg s.pos.toNat (remaining s)))
  | some bs =>
    let full := remaining s = Config.blockBytes
    let b := blockOf (if full then bs else padded bs)
    let l := if full then s.k1 else s.k2
    .next { s with blk := b, v := finishInto s.nrounds s.v b l, ph := .emit }

/-- EMIT (R114). -/
def emitPhase (s : State) : State :=
  { s with
    tag := memWriteTag s.tag 0 (keepFirst s.tlat.toNat (bytes s.v)).toList
    status := tagReady s.tlat s.status
    v := Quad.zero
    blk := Block.zero
    pos := 0
    ph := .idle }

/-- One phase of the MAC in progress (R115); an idle engine has none. -/
def phaseStep (s : State) : Result :=
  match s.ph with
  | .idle => .next s
  | .absorb => absorbPhase s
  | .final => finalPhase s
  | .emit => .next (emitPhase s)

/-- At most `fuel` phases, until the engine is idle. -/
def runPhases : Nat → State → Result
  | 0, s => .next s
  | fuel + 1, s =>
    match s.ph with
    | .idle => .next s
    | .absorb => andThen (phaseStep s) (runPhases fuel)
    | .final => andThen (phaseStep s) (runPhases fuel)
    | .emit => andThen (phaseStep s) (runPhases fuel)

/-- Enough phases for the MAC in progress: the non-final blocks, the transfer to FINAL, FINAL and EMIT (R115, R117). -/
def phaseBound (s : State) : Nat := remaining s / Config.blockBytes + 3

/-- The MAC in progress runs to completion and responds (R71, R110; log 6). -/
def completeMac (s : State) : Result := andThen (runPhases (phaseBound s) s) (respondOk 0)

/-- MAC tl (R110). -/
def execMac (tl : Nat) (s : State) : Result :=
  if tl > Config.tagMax then raiseError invalidArgument s else completeMac (initPhase tl s)

/-- ABSORB n times over (R112): how the loop of R110 stands after n of its rounds. -/
def absorbTimes : Nat → State → Result
  | 0, s => .next s
  | n + 1, s => andThen (absorbPhase s) (absorbTimes n)

/-- Block j of a message: its bytes 16j .. 16j+15 (R116). -/
def messageBlock (m : List Byte) (j : Nat) : Block :=
  blockOf ((m.drop (Config.blockBytes * j)).take Config.blockBytes)

/-- LASTBLOCK(m, mlen) with mlen the length of m (R104). -/
def lastBlock (m : List Byte) : List Byte :=
  if rlast m.length = Config.blockBytes then m.drop (foff m.length) else padded (m.drop (foff m.length))

/-- SELECT(mlen): the subkey used in finalisation (R105). -/
def selectSubkey (mlen : Nat) (k1 k2 : Quad) : Quad := if rlast mlen = Config.blockBytes then k1 else k2

/-- The permutation state after the first n blocks of m (R116's loop). -/
def absorbBlocks (rounds : Nat) (m : List Byte) (k : Quad) : Nat → Quad
  | 0 => k
  | n + 1 => absorbInto rounds (absorbBlocks rounds m k n) (messageBlock m n)

/-- The permutation state a MAC over m ends with, before it is cut to the tag length (R116). -/
def macState (rounds : Nat) (m : List Byte) (k k1 k2 : Quad) : Quad :=
  finishInto rounds (absorbBlocks rounds m k (nnf m.length)) (blockOf (lastBlock m)) (selectSubkey m.length k1 k2)

/-- MACF(tl, m, mlen, K, K1, K2): the pair (TAG, TLEN), mlen the length of m (R116). -/
def macf (rounds tl : Nat) (m : List Byte) (k k1 k2 : Quad) : Block × BitVec 5 :=
  (keepFirst tl (bytes (macState rounds m k k1 k2)), BitVec.ofNat 5 tl)

end Sys2Proof.Machine
end

