-- ==== Sys2Proof/Machine/Subkey.lean ====
section
/-! DEFINITION. The Subkey Deriver (`40_subkey_deriver.md` R90 to R95). -/

namespace Sys2Proof.Machine

/-- DOUBLE(X) (R90). Every right-hand side reads the input X. -/
def double (x : Quad) : Quad :=
  { w0 := (x.w0 <<< 1) ^^^ (if x.w3 >>> 31 = 1 then Config.cred else 0)
    w1 := (x.w1 <<< 1) ||| (x.w0 >>> 31)
    w2 := (x.w2 <<< 1) ||| (x.w1 >>> 31)
    w3 := (x.w3 <<< 1) ||| (x.w2 >>> 31) }

/-- DERIVE_SUBKEYS(KEY) (R93). -/
def deriveSubkeys (key : Quad) : Quad × Quad := (double key, double (double key))

/-- DERIVE (R95). -/
def execDerive (s : State) : Result :=
  respondOk 0 { s with
    k1 := (deriveSubkeys s.k).1
    k2 := (deriveSubkeys s.k).2
    status := subkeysDerived s.status }

end Sys2Proof.Machine
end

