-- ==== Sys2Proof/Machine/Dispatch.lean ====
section
/-! DEFINITION. The meaning of a command, one arm per constructor of Instr. -/

namespace Sys2Proof.Machine

def exec (i : Instr) (s : State) : Host.Outcome State Fault Refusal :=
  match i with
  | .nop => Sys2Proof.Machine.execNop s
  | .wrk idx w => Sys2Proof.Machine.execWrk idx w s
  | .wrk1 idx w => Sys2Proof.Machine.execWrk1 idx w s
  | .wrk2 idx w => Sys2Proof.Machine.execWrk2 idx w s
  | .wrlen n => Sys2Proof.Machine.execWrlen n s
  | .rdk1 idx => Sys2Proof.Machine.execRdk1 idx s
  | .rdk2 idx => Sys2Proof.Machine.execRdk2 idx s
  | .rdtag idx => Sys2Proof.Machine.execRdtag idx s
  | .rdstat => Sys2Proof.Machine.execRdstat s
  | .rdcfg => Sys2Proof.Machine.execRdcfg s
  | .rdlen => Sys2Proof.Machine.execRdlen s
  | .derive => Sys2Proof.Machine.execDerive s
  | .mac tl => Sys2Proof.Machine.execMac tl s
  | .clrerr => Sys2Proof.Machine.execClrerr s

end Sys2Proof.Machine
end

