-- ==== Sys2Proof/Machine/Step.lean ====
section
/-! DEFINITION. One step: the next move of the host, run to its end (`30_encoding.md` R71, `20_memory.md` R63(a)). -/

namespace Sys2Proof.Machine

/-- A command word with its data operand: decoded first and only then executed (R157); an illegal word raises
IllegalCommand (R79, R152). -/
def runCommand (cw wdata : Word) (s : State) : Host.Outcome State Fault Refusal :=
  match decode cw wdata with
  | .ok i => exec i s
  | .illegal _ => raiseError illegalCommand s

/-- One step. An idle engine takes the host's next move; an engine with a MAC in progress, which no run between
commands shows, runs it to completion before it accepts anything (R71; log 6). -/
def step (s : State) : Host.Outcome State Fault Refusal :=
  match s.ph with
  | .idle =>
    match s.host with
    | [] => idleStep s
    | .command cw wdata :: rest => runCommand cw wdata { s with host := rest }
    | .message bs :: rest => hostMessage bs { s with host := rest }
    | .reset :: rest => hostReset { s with host := rest }
  | .absorb => completeMac s
  | .final => completeMac s
  | .emit => completeMac s

/-- `s` with a command as the host's next move, and the engine ready for it (log 7). -/
def State.withFetchWord (s : State) (nbits w : Nat) : State :=
  { s with ph := .idle, host := .command (tableCw nbits w) (tableWdata nbits w) :: s.host }

end Sys2Proof.Machine
end

