-- ==== Sys2Proof/Machine/Script.lean ====
section
/-! DEFINITION. Command scripts (`30_encoding.md` R82 to R84): the text of a script, its lines, the seven
pseudo-instructions with their exact expansions and the two directives, and the host's moves a script stands for. -/

namespace Sys2Proof.Machine

/-- One line of a script, its numbers within the ranges of R82. -/
inductive ScriptLine where
  /-- a command of R82 -/
  | plain (i : Instr)
  /-- `.cw x, w`; `95_test_vectors.md` also writes `.cw x`, which is `.cw x, 0` (log 16) -/
  | cw (x w : Word)
  /-- `.msg b0 b1 ...` (R84) -/
  | msg (bs : List Byte)
  /-- `LDKEY w0, w1, w2, w3` (R83, as the six lines after it) -/
  | ldkey (w0 w1 w2 w3 : Word)
  | ldk1 (w0 w1 w2 w3 : Word)
  | ldk2 (w0 w1 w2 w3 : Word)
  | setkey (w0 w1 w2 w3 : Word)
  | macn (tl : Nat) (n : Word)
  | rdtags
  | rdsubkeys
  deriving DecidableEq, Repr

/-- The host's move that issues a command, encoded as R82 says. -/
def issue (i : Instr) : HostMove := .command (encode i).1 (encode i).2

/-- The moves a line stands for: a command, a directive, or the expansion of R83. -/
def ScriptLine.moves : ScriptLine → List HostMove
  | .plain i => [issue i]
  | .cw x w => [.command x w]
  | .msg bs => [.message bs]
  | .ldkey w0 w1 w2 w3 => [issue (.wrk 0 w0), issue (.wrk 1 w1), issue (.wrk 2 w2), issue (.wrk 3 w3)]
  | .ldk1 w0 w1 w2 w3 => [issue (.wrk1 0 w0), issue (.wrk1 1 w1), issue (.wrk1 2 w2), issue (.wrk1 3 w3)]
  | .ldk2 w0 w1 w2 w3 => [issue (.wrk2 0 w0), issue (.wrk2 1 w1), issue (.wrk2 2 w2), issue (.wrk2 3 w3)]
  | .setkey w0 w1 w2 w3 =>
    [issue (.wrk 0 w0), issue (.wrk 1 w1), issue (.wrk 2 w2), issue (.wrk 3 w3), issue .derive]
  | .macn tl n => [issue (.wrlen n), issue (.mac tl)]
  | .rdtags => [issue (.rdtag 0), issue (.rdtag 1), issue (.rdtag 2), issue (.rdtag 3)]
  | .rdsubkeys =>
    [issue (.rdk1 0), issue (.rdk1 1), issue (.rdk1 2), issue (.rdk1 3),
     issue (.rdk2 0), issue (.rdk2 1), issue (.rdk2 2), issue (.rdk2 3)]

/-- The value of a digit in base 10 or 16, either case of a hexadecimal digit. -/
def digitValue (base : Nat) (c : Char) : Option Nat :=
  let n := c.toNat
  let d :=
    if 48 ≤ n ∧ n ≤ 57 then n - 48
    else if 65 ≤ n ∧ n ≤ 70 then n - 55
    else if 97 ≤ n ∧ n ≤ 102 then n - 87
    else base
  if d < base then some d else none

/-- The number a non-empty digit string stands for, `acc` the value of the digits before it. -/
def digitsValue (base : Nat) : Nat → List Char → Option Nat
  | acc, [] => some acc
  | acc, c :: rest =>
    match digitValue base c with
    | none => none
    | some d => digitsValue base (base * acc + d) rest

/-- A number of a script: decimal, or hexadecimal after `0x` (R82; log 16). -/
def numberValue : List Char → Option Nat
  | [] => none
  | '0' :: 'x' :: [] => none
  | '0' :: 'x' :: ds => digitsValue 16 0 ds
  | ds => digitsValue 10 0 ds

/-- A number in 0 .. 2^32 - 1 as a word. -/
def asWord (n : Nat) : Option Word := if n < 4294967296 then some (BitVec.ofNat 32 n) else none

/-- A word index in 0..3. -/
def asIndex (n : Nat) : Option (Fin 4) := if h : n < 4 then some ⟨n, h⟩ else none

/-- A tag length in 0..255. -/
def asTagLength (n : Nat) : Option Nat := if n < 256 then some n else none

/-- The characters that separate words of a line. -/
def isBlank (c : Char) : Bool := c == ' ' || c == '\t' || c == '\r'

/-- The words of a line; a comma is a word of its own. `word` holds the characters of the word being read. -/
def wordsOf (word : List Char) : List Char → List (List Char)
  | [] => if word = [] then [] else [word]
  | c :: rest =>
    if isBlank c then (if word = [] then [] else [word]) ++ wordsOf [] rest
    else if c = ',' then (if word = [] then [] else [word]) ++ [','] :: wordsOf [] rest
    else wordsOf (word ++ [c]) rest

/-- Numbers separated by commas. -/
def commaNumbers : List (List Char) → Option (List Nat)
  | [] => some []
  | [w] => (numberValue w).map ([·])
  | w :: c :: rest =>
    if c = [','] then
      match numberValue w, rest with
      | some n, _ :: _ => (commaNumbers rest).map (n :: ·)
      | _, _ => none
    else none

/-- The bytes of a `.msg` directive, one or two hexadecimal digits each, without `0x` (R84). -/
def messageBytes : List (List Char) → Option (List Byte)
  | [] => some []
  | w :: rest =>
    if w.length = 0 ∨ 2 < w.length then none
    else
      match digitsValue 16 0 w with
      | none => none
      | some n => (messageBytes rest).map (BitVec.ofNat 8 n :: ·)

/-- A command with an index and a data word. -/
def indexAndWord (f : Fin 4 → Word → Instr) (i w : Nat) : Option ScriptLine :=
  match asIndex i, asWord w with
  | some i, some w => some (.plain (f i w))
  | _, _ => none

/-- A line with four data words. -/
def fourWords (f : Word → Word → Word → Word → ScriptLine) (a b c d : Nat) : Option ScriptLine :=
  match asWord a, asWord b, asWord c, asWord d with
  | some a, some b, some c, some d => some (f a b c d)
  | _, _, _, _ => none

/-- The line of a mnemonic with its numbers (R82, R83). -/
def lineOf (mnemonic : List Char) (ns : List Nat) : Option ScriptLine :=
  if mnemonic = ['N','O','P'] then match ns with | [] => some (.plain .nop) | _ => none
  else if mnemonic = ['W','R','K'] then match ns with | [i, w] => indexAndWord .wrk i w | _ => none
  else if mnemonic = ['W','R','K','1'] then match ns with | [i, w] => indexAndWord .wrk1 i w | _ => none
  else if mnemonic = ['W','R','K','2'] then match ns with | [i, w] => indexAndWord .wrk2 i w | _ => none
  else if mnemonic = ['W','R','L','E','N'] then
    match ns with | [n] => (asWord n).map (fun n => .plain (.wrlen n)) | _ => none
  else if mnemonic = ['R','D','K','1'] then
    match ns with | [i] => (asIndex i).map (fun i => .plain (.rdk1 i)) | _ => none
  else if mnemonic = ['R','D','K','2'] then
    match ns with | [i] => (asIndex i).map (fun i => .plain (.rdk2 i)) | _ => none
  else if mnemonic = ['R','D','T','A','G'] then
    match ns with | [i] => (asIndex i).map (fun i => .plain (.rdtag i)) | _ => none
  else if mnemonic = ['R','D','S','T','A','T'] then match ns with | [] => some (.plain .rdstat) | _ => none
  else if mnemonic = ['R','D','C','F','G'] then match ns with | [] => some (.plain .rdcfg) | _ => none
  else if mnemonic = ['R','D','L','E','N'] then match ns with | [] => some (.plain .rdlen) | _ => none
  else if mnemonic = ['D','E','R','I','V','E'] then match ns with | [] => some (.plain .derive) | _ => none
  else if mnemonic = ['M','A','C'] then
    match ns with | [tl] => (asTagLength tl).map (fun tl => .plain (.mac tl)) | _ => none
  else if mnemonic = ['C','L','R','E','R','R'] then match ns with | [] => some (.plain .clrerr) | _ => none
  else if mnemonic = ['.','c','w'] then
    match ns with
    | [x, w] => match asWord x, asWord w with | some x, some w => some (.cw x w) | _, _ => none
    | [x] => (asWord x).map (fun x => .cw x 0)
    | _ => none
  else if mnemonic = ['L','D','K','E','Y'] then match ns with | [a, b, c, d] => fourWords .ldkey a b c d | _ => none
  else if mnemonic = ['L','D','K','1'] then match ns with | [a, b, c, d] => fourWords .ldk1 a b c d | _ => none
  else if mnemonic = ['L','D','K','2'] then match ns with | [a, b, c, d] => fourWords .ldk2 a b c d | _ => none
  else if mnemonic = ['S','E','T','K','E','Y'] then match ns with | [a, b, c, d] => fourWords .setkey a b c d | _ => none
  else if mnemonic = ['M','A','C','N'] then
    match ns with
    | [tl, n] => match asTagLength tl, asWord n with | some tl, some n => some (.macn tl n) | _, _ => none
    | _ => none
  else if mnemonic = ['R','D','T','A','G','S'] then match ns with | [] => some .rdtags | _ => none
  else if mnemonic = ['R','D','S','U','B','K','E','Y','S'] then match ns with | [] => some .rdsubkeys | _ => none
  else none

/-- The lines a text line holds: none for a blank or comment line (R82); no answer where it is no line of a script. -/
def parseLine (text : List Char) : Option (List ScriptLine) :=
  match wordsOf [] (text.takeWhile (· != '#')) with
  | [] => some []
  | w :: rest =>
    if w = ['.','m','s','g'] then (messageBytes rest).map (fun bs => [.msg bs])
    else
      match commaNumbers rest with
      | none => none
      | some ns => (lineOf w ns).map ([·])

/-- The text lines of a text; `line` holds the characters of the line being read. -/
def textLines (line : List Char) : List Char → List (List Char)
  | [] => [line]
  | c :: rest => if c = '\n' then line :: textLines [] rest else textLines (line ++ [c]) rest

/-- The lines of a list of text lines. -/
def parseLines : List (List Char) → Option (List ScriptLine)
  | [] => some []
  | l :: rest =>
    match parseLine l, parseLines rest with
    | some here, some others => some (here ++ others)
    | _, _ => none

/-- The host's moves a script's text stands for (R82 to R84), no answer where the text is no script. -/
def assemble (text : List Char) : Option (List HostMove) :=
  (parseLines (textLines [] text)).map (fun ls => ls.flatMap ScriptLine.moves)

end Sys2Proof.Machine
end

