-- ==== Sys2Proof/Safety.lean ====
section
/-! DEFINITION. The terms the claims use: a result that completes, the premise of a MAC, what stays the same across
a command, and the invariants of `10_state.md` R31, R32, R36 and R39. -/

namespace Sys2Proof.Machine

/-- The step or command answers a next state. -/
def completes (r : Result) : Prop := ∃ t, r = .next t

/-- MSG holds a byte at every offset below MLEN (R51, the premise of a MAC). -/
def messageReadable (s : State) : Prop := ∀ a, a < s.mlen.toNat → (readByte s.msg a).isSome = true

/-- The message a MAC reads: the MLEN bytes of MSG from offset 0 (R51, R100). -/
def messageIs (s : State) (m : List Byte) : Prop := memRead s.msg 0 s.mlen.toNat = some m

/-- K, K1, K2 are unchanged. -/
structure SameKeys (s t : State) : Prop where
  k : t.k = s.k
  k1 : t.k1 = s.k1
  k2 : t.k2 = s.k2

/-- V, PH, POS, TLAT, BLK are unchanged. -/
structure SameHidden (s t : State) : Prop where
  v : t.v = s.v
  ph : t.ph = s.ph
  pos : t.pos = s.pos
  tlat : t.tlat = s.tlat
  blk : t.blk = s.blk

/-- What no command may touch: every byte of MSG, CFG, the host's moves to come. -/
structure SameWorld (s t : State) : Prop where
  msg : ∀ a, readByte t.msg a = readByte s.msg a
  cells : t.msg = s.msg
  cfg : t.nroundsPred = s.nroundsPred
  host : t.host = s.host

/-- A command that only reads: every state element is as before, the response alone is new. -/
structure OnlyResponds (s t : State) (code : BitVec 4) (data : Word) : Prop where
  keys : SameKeys s t
  mlen : t.mlen = s.mlen
  tag : t.tag = s.tag
  status : t.status = s.status
  hidden : SameHidden s t
  world : SameWorld s t
  response : t.response = some ⟨code, data⟩

/-- The engine is between two commands (R39, R32). -/
structure Between (s : State) : Prop where
  idle : s.ph = .idle
  pos : s.pos = 0
  v : s.v = Quad.zero
  blk : s.blk = Block.zero
  tlenIfNoTag : s.status.tagv = false → s.status.tlen = 0
  tagBeyond : ∀ j : Fin 16, s.status.tlen.toNat ≤ j.val → s.tag[j.val] = 0
  err : s.status.err.toNat ≤ 2
  tlen : s.status.tlen.toNat ≤ 16
  tlat : s.tlat.toNat ≤ 16

/-- SKD = 1 only if K1 and K2 are the subkeys of the present K (R31, R34). -/
def skdSound (s : State) : Prop := s.status.skd = true → s.k1 = double s.k ∧ s.k2 = double (double s.k)

/-- The invariant of the machine between commands: R39 and R32, the meaning of SKD, the canonical message space. -/
structure Inv (s : State) : Prop where
  between : Between s
  skd : skdSound s
  memory : memoryWf s.msg = true

/-- The sequencing pair (PH, POS) of R36: POS is a multiple of 16, never beyond the last block, at it once the
absorption is over, and 0 whenever the engine is idle. -/
structure PhaseInv (s : State) : Prop where
  aligned : s.pos.toNat % 16 = 0
  within : s.pos.toNat ≤ foff s.mlen.toNat
  idle : s.ph = .idle → s.pos = 0
  absorbed : s.ph = .final ∨ s.ph = .emit → s.pos.toNat = foff s.mlen.toNat

end Sys2Proof.Machine
end

