-- ==== Sys2Proof/Certificates/Slice0/Obligations.lean ====
section
/-! DEFINITION. The statements about the engine, one `def Obligations.<Name> : Prop` each, in the order of
OBLIGATIONS.json. A docstring names the rule or the section of spec/ a statement formalises. -/

open Sys2Proof Sys2Proof.Machine

/- Encoding. -/

/-- The worked encodings of `30_encoding.md` R85, and `MAC 17` raising InvalidArgument. -/
def Obligations.WorkedEncodingsDecode : Prop :=
  decode 0x01000002 0x2398E64F = .ok (.wrk 2 0x2398E64F) ∧
  decode 0x11000010 0 = .ok (.mac 16) ∧
  decode 0x11000011 0 = .ok (.mac 17) ∧
  (∃ t, exec (.mac 17) State.reset = .next t ∧ t.response = some ⟨1, 0⟩) ∧
  decode 0x0A000003 0 = .ok (.rdtag 3) ∧
  decode 0x0A000004 0 = .illegal .argHighNotZero ∧
  decode 0x10000001 0 = .illegal .argNotZero ∧
  decode 0x11010010 0 = .illegal .mbzNotZero ∧
  decode 0x05000000 0 = .illegal .reservedOpcode

/-- Every well-formed command is what its own encoding decodes to (`30_encoding.md` R72 to R79, R82). -/
def Obligations.DecodeOfEncodeIsTheCommand : Prop :=
  ∀ i : Instr, i.wellFormed = true → decode (encode i).1 (encode i).2 = .ok i

/-- Every legal word is what its own command encodes to, and WDATA with it where the command uses it
(`30_encoding.md` R77 to R79). -/
def Obligations.EncodeOfDecodeIsTheWord : Prop :=
  ∀ (cw wdata : Word) (i : Instr), decode cw wdata = .ok i →
    i.wellFormed = true ∧ encode i = (cw, if i.usesWdata then wdata else 0)

/-- A word decodes to a command iff it matches that command's row of the opcode map, no word matches two rows
(`30_encoding.md` R77, R80). -/
def Obligations.DecoderFollowsTheOpcodeMap : Prop :=
  (∀ (cw wdata : Word) (r : OpcodeRow), r ∈ opcodeMap →
    (r.covers cw = true ↔ ∃ i, decode cw wdata = .ok i ∧ i.mnemonic = r.mnemonic)) ∧
  (∀ (cw wdata : Word) (i : Instr), decode cw wdata = .ok i → ∃ r ∈ opcodeMap, r.mnemonic = i.mnemonic) ∧
  (∀ (cw : Word) (r r' : OpcodeRow), r ∈ opcodeMap → r' ∈ opcodeMap →
    r.covers cw = true → r'.covers cw = true → r = r')

/-- Exactly 287 words are legal (`30_encoding.md` R79). -/
def Obligations.ExactlyTheListedWordsAreLegal : Prop :=
  legalWords.length = 287 ∧ legalWords.Nodup ∧
  ∀ cw wdata : Word, (∃ i, decode cw wdata = .ok i) ↔ cw ∈ legalWords

/-- The four ways a word is illegal (`60_exceptions.md` R152, `30_encoding.md` R79, R80). -/
def Obligations.IllegalWordsAreTheFourKinds : Prop :=
  ∀ cw wdata : Word, (∃ why, decode cw wdata = .illegal why) ↔
    (mbzField cw ≠ 0 ∨
     opcField cw ∉ [0x00, 0x01, 0x02, 0x03, 0x04, 0x08, 0x09, 0x0A, 0x0B, 0x0C, 0x0D, 0x10, 0x11, 0x1F] ∨
     (opcField cw ∈ [0x00, 0x04, 0x0B, 0x0C, 0x0D, 0x10, 0x1F] ∧ argField cw ≠ 0) ∨
     (opcField cw ∈ [0x01, 0x02, 0x03, 0x08, 0x09, 0x0A] ∧ argHighField cw ≠ 0))

/-- A command that does not use WDATA decodes the same whatever WDATA is, and any word that decodes with one WDATA
decodes with every WDATA to the command of the same mnemonic (`30_encoding.md` R78). -/
def Obligations.UnusedWdataIsIgnored : Prop :=
  ∀ (cw wdata wdata' : Word) (i : Instr), decode cw wdata = .ok i →
    (i.usesWdata = false → decode cw wdata' = .ok i) ∧
    ∃ i', decode cw wdata' = .ok i' ∧ i'.mnemonic = i.mnemonic

/-- The pseudo-instructions expand as `30_encoding.md` R83 lists them, each to the command words and data words of R82
that the host hands over. -/
def Obligations.PseudoInstructionsExpand : Prop :=
  (∀ w0 w1 w2 w3 : Word,
    (ScriptLine.setkey w0 w1 w2 w3).moves = (ScriptLine.ldkey w0 w1 w2 w3).moves ++ (ScriptLine.plain .derive).moves ∧
    (ScriptLine.ldkey w0 w1 w2 w3).moves =
      [.command 0x01000000 w0, .command 0x01000001 w1, .command 0x01000002 w2, .command 0x01000003 w3] ∧
    (ScriptLine.ldk1 w0 w1 w2 w3).moves =
      [.command 0x02000000 w0, .command 0x02000001 w1, .command 0x02000002 w2, .command 0x02000003 w3] ∧
    (ScriptLine.ldk2 w0 w1 w2 w3).moves =
      [.command 0x03000000 w0, .command 0x03000001 w1, .command 0x03000002 w2, .command 0x03000003 w3]) ∧
  (∀ (tl : Nat) (n : Word), tl < 256 →
    (ScriptLine.macn tl n).moves = [.command 0x04000000 n, .command (0x11000000 + BitVec.ofNat 32 tl) 0]) ∧
  ScriptLine.rdtags.moves =
    [.command 0x0A000000 0, .command 0x0A000001 0, .command 0x0A000002 0, .command 0x0A000003 0] ∧
  ScriptLine.rdsubkeys.moves =
    [.command 0x08000000 0, .command 0x08000001 0, .command 0x08000002 0, .command 0x08000003 0,
     .command 0x09000000 0, .command 0x09000001 0, .command 0x09000002 0, .command 0x09000003 0]

/- The step. -/

/-- A step runs the decoded command: the engine is idle and the host's next move is a command word that decodes
(`30_encoding.md` R71, `60_exceptions.md` R157). -/
def Obligations.StepRunsTheDecodedCommand : Prop :=
  ∀ (s : State) (cw wdata : Word) (rest : List HostMove) (i : Instr),
    s.ph = .idle → s.host = .command cw wdata :: rest → decode cw wdata = .ok i →
    step s = exec i { s with host := rest }

/-- An illegal word raises IllegalCommand and does nothing else: the first error is recorded, RESP is 2, RDATA 0,
and TAG, TAGV and TLEN stay, even where the word has OPC 0x11 and TL > 16
(`60_exceptions.md` R152, R155, R157, R160). -/
def Obligations.IllegalWordRaisesIllegalCommand : Prop :=
  ∀ (s : State) (cw wdata : Word) (rest : List HostMove) (why : Illegal),
    s.ph = .idle → s.host = .command cw wdata :: rest → decode cw wdata = .illegal why →
    ∃ t, step s = .next t ∧
      t.status.err = (if s.status.err = 0 then 2 else s.status.err) ∧
      t.response = some ⟨2, 0⟩ ∧
      SameKeys s t ∧ t.mlen = s.mlen ∧ t.tag = s.tag ∧
      t.status.tagv = s.status.tagv ∧ t.status.skd = s.status.skd ∧ t.status.tlen = s.status.tlen ∧
      SameHidden s t ∧ (∀ a, readByte t.msg a = readByte s.msg a) ∧ t.nroundsPred = s.nroundsPred ∧ t.host = rest

/-- A word with OPC 0x11, TL > 16 and a 1 in MBZ raises IllegalCommand, not InvalidArgument (`60_exceptions.md` R157). -/
def Obligations.IllegalCommandWinsOverInvalidArgument : Prop :=
  ∀ cw wdata : Word, opcField cw = 0x11 → 16 < (argField cw).toNat → mbzField cw ≠ 0 →
    ∀ (s : State) (rest : List HostMove), s.ph = .idle → s.host = .command cw wdata :: rest →
    ∃ t, step s = .next t ∧ t.response = some ⟨2, 0⟩ ∧ t.tag = s.tag ∧
      t.status.tagv = s.status.tagv ∧ t.status.tlen = s.status.tlen

/-- The host fills its message buffer: exactly these bytes are readable, at offsets 0 .. n-1, and no engine state
changes, MLEN included (`30_encoding.md` R84, `20_memory.md` R50; that the bytes beyond offset 2^32 - 1 have no place is
excluded by the bound on n). The move is the model's own form of R84 (log 3). -/
def Obligations.PlacedMessageIsReadBack : Prop :=
  ∀ (s : State) (bs : List Byte) (rest : List HostMove),
    s.ph = .idle → s.host = .message bs :: rest → bs.length ≤ 4294967296 →
    ∃ t, step s = .next t ∧ (∀ a, readByte t.msg a = bs[a]?) ∧
      SameKeys s t ∧ t.mlen = s.mlen ∧ t.tag = s.tag ∧ t.status = s.status ∧ SameHidden s t ∧
      t.nroundsPred = s.nroundsPred ∧ t.host = rest ∧ t.response = none

/-- A reset between two commands puts every state element at its reset value, CFG keeps NROUNDS, and the message and
the host's moves to come stay (`70_reset_and_hazards.md` R171; the last clause is the model's reading of R41, log 8). -/
def Obligations.ResetRestoresEveryStateElement : Prop :=
  ∀ (s : State) (rest : List HostMove), s.ph = .idle → s.host = .reset :: rest →
    ∃ t, step s = .next t ∧
      (∀ i, wordAt t.k i = 0 ∧ wordAt t.k1 i = 0 ∧ wordAt t.k2 i = 0 ∧ wordAt t.v i = 0) ∧
      t.mlen = 0 ∧ (∀ j : Fin 16, t.tag[j.val] = 0 ∧ t.blk[j.val] = 0) ∧
      t.status.tagv = false ∧ t.status.skd = false ∧ t.status.err = 0 ∧ t.status.tlen = 0 ∧
      t.ph = .idle ∧ t.pos = 0 ∧ t.tlat = 0 ∧ cfgWord t = cfgWord s ∧
      (∀ a, readByte t.msg a = readByte s.msg a) ∧ t.host = rest

/-- The reset state is the table of `10_state.md` R40. -/
def Obligations.ResetStateHoldsTheTableValues : Prop :=
  (∀ i, wordAt State.reset.k i = 0 ∧ wordAt State.reset.k1 i = 0 ∧ wordAt State.reset.k2 i = 0 ∧
    wordAt State.reset.v i = 0) ∧
  State.reset.mlen = 0 ∧ (∀ j : Fin 16, State.reset.tag[j.val] = 0 ∧ State.reset.blk[j.val] = 0) ∧
  State.reset.status.tagv = false ∧ State.reset.status.skd = false ∧ State.reset.status.err = 0 ∧
  State.reset.status.tlen = 0 ∧ statusWord State.reset.status = 0 ∧ cfgWord State.reset = 0x0000000C ∧
  State.reset.ph = .idle ∧ State.reset.pos = 0 ∧ State.reset.tlat = 0

/-- Without a move of the host the idle engine holds its state (`60_exceptions.md` R165; the step itself is the
model's choice, log 3). -/
def Obligations.EngineHoldsItsStateWithoutAMove : Prop :=
  ∀ s : State, s.ph = .idle → s.host = [] → step s = .next { s with response := none }

/- The host access commands: what each changes, what it leaves, what it responds, for every state. -/

/-- NOP (`43_host_access.md` R130): the all-zero word; nothing changes; RESP = 0, RDATA = 0. -/
def Obligations.NopChangesNothing : Prop :=
  encode .nop = (0x00000000, 0) ∧ (∀ wdata, decode 0x00000000 wdata = .ok .nop) ∧
  ∀ s : State, ∃ t, exec .nop s = .next t ∧ OnlyResponds s t 0 0

/-- WRK i, w (`43_host_access.md` R131): word i of K is w, the other words are kept, SKD is 0 whatever the data;
nothing else changes. -/
def Obligations.WrkWritesOneKeyWord : Prop :=
  ∀ (s : State) (i : Fin 4) (w : Word),
    encode (.wrk i w) = (0x01000000 + BitVec.ofNat 32 i.val, w) ∧
    ∃ t, exec (.wrk i w) s = .next t ∧
      (∀ j, wordAt t.k j = if j = i then w else wordAt s.k j) ∧
      t.status.skd = false ∧ t.response = some ⟨0, 0⟩ ∧
      t.k1 = s.k1 ∧ t.k2 = s.k2 ∧ t.mlen = s.mlen ∧ t.tag = s.tag ∧
      t.status.tagv = s.status.tagv ∧ t.status.tlen = s.status.tlen ∧ t.status.err = s.status.err ∧
      SameHidden s t ∧ SameWorld s t

/-- WRK1 i, w and WRK2 i, w (`43_host_access.md` R132, R133): word i of the one bank is w, its other words are kept, SKD
is 0 whatever the data; nothing else changes, the other subkey and K included. -/
def Obligations.Wrk1AndWrk2WriteOneSubkeyWord : Prop :=
  ∀ (s : State) (i : Fin 4) (w : Word),
    encode (.wrk1 i w) = (0x02000000 + BitVec.ofNat 32 i.val, w) ∧
    encode (.wrk2 i w) = (0x03000000 + BitVec.ofNat 32 i.val, w) ∧
    (∃ t, exec (.wrk1 i w) s = .next t ∧
      (∀ j, wordAt t.k1 j = if j = i then w else wordAt s.k1 j) ∧
      t.status.skd = false ∧ t.response = some ⟨0, 0⟩ ∧
      t.k = s.k ∧ t.k2 = s.k2 ∧ t.mlen = s.mlen ∧ t.tag = s.tag ∧
      t.status.tagv = s.status.tagv ∧ t.status.tlen = s.status.tlen ∧ t.status.err = s.status.err ∧
      SameHidden s t ∧ SameWorld s t) ∧
    ∃ t, exec (.wrk2 i w) s = .next t ∧
      (∀ j, wordAt t.k2 j = if j = i then w else wordAt s.k2 j) ∧
      t.status.skd = false ∧ t.response = some ⟨0, 0⟩ ∧
      t.k = s.k ∧ t.k1 = s.k1 ∧ t.mlen = s.mlen ∧ t.tag = s.tag ∧
      t.status.tagv = s.status.tagv ∧ t.status.tlen = s.status.tlen ∧ t.status.err = s.status.err ∧
      SameHidden s t ∧ SameWorld s t

/-- WRLEN n (`43_host_access.md` R134): every n is a legal length; no message byte and no flag changes. -/
def Obligations.WrlenDeclaresTheLength : Prop :=
  ∀ (s : State) (n : Word),
    encode (.wrlen n) = (0x04000000, n) ∧
    ∃ t, exec (.wrlen n) s = .next t ∧ t.mlen = n ∧ t.response = some ⟨0, 0⟩ ∧
      SameKeys s t ∧ t.tag = s.tag ∧ t.status = s.status ∧ SameHidden s t ∧ SameWorld s t

/-- RDK1 i and RDK2 i (`43_host_access.md` R136, R137): return K1[i] and K2[i], change nothing, whatever WDATA and SKD
are. -/
def Obligations.Rdk1AndRdk2ReturnTheSubkeyWord : Prop :=
  ∀ (s : State) (i : Fin 4),
    encode (.rdk1 i) = (0x08000000 + BitVec.ofNat 32 i.val, 0) ∧
    encode (.rdk2 i) = (0x09000000 + BitVec.ofNat 32 i.val, 0) ∧
    (∀ wdata, decode (0x08000000 + BitVec.ofNat 32 i.val) wdata = .ok (.rdk1 i)) ∧
    (∀ wdata, decode (0x09000000 + BitVec.ofNat 32 i.val) wdata = .ok (.rdk2 i)) ∧
    (∃ t, exec (.rdk1 i) s = .next t ∧ OnlyResponds s t 0 (wordAt s.k1 i)) ∧
    ∃ t, exec (.rdk2 i) s = .next t ∧ OnlyResponds s t 0 (wordAt s.k2 i)

/-- RDTAG i (`43_host_access.md` R138): returns a word whose byte j, bits 8j+7 to 8j, is TAG[4i + j], and changes
nothing, TAGV and TAG included, whatever TAGV is; between commands it returns 0 where TAGV = 0, and the bytes at offsets
at or beyond TLEN read as 0. -/
def Obligations.RdtagReturnsTheTagWord : Prop :=
  ∀ (s : State) (i : Fin 4),
    encode (.rdtag i) = (0x0A000000 + BitVec.ofNat 32 i.val, 0) ∧
    (∀ wdata, decode (0x0A000000 + BitVec.ofNat 32 i.val) wdata = .ok (.rdtag i)) ∧
    ∃ t data, exec (.rdtag i) s = .next t ∧ OnlyResponds s t 0 data ∧
      (∀ j : Fin 4, (data.extractLsb' (8 * j.val) 8 : Byte) = s.tag.toList.getD (4 * i.val + j.val) 0) ∧
      (Between s → (s.status.tagv = false → data = 0) ∧
        ∀ j : Fin 4, s.status.tlen.toNat ≤ 4 * i.val + j.val → (data.extractLsb' (8 * j.val) 8 : Byte) = 0)

/-- RDSTAT (`43_host_access.md` R139, `10_state.md` R31): the layout of STATUS, reserved bits 0; nothing changes, in
particular ERR is not cleared. -/
def Obligations.RdstatReturnsTheStatusLayout : Prop :=
  encode .rdstat = (0x0B000000, 0) ∧ (∀ wdata, decode 0x0B000000 wdata = .ok .rdstat) ∧
  ∀ s : State, ∃ t data, exec .rdstat s = .next t ∧ OnlyResponds s t 0 data ∧
    data.getLsbD 0 = s.status.tagv ∧ data.getLsbD 1 = s.status.skd ∧
    data.extractLsb' 2 2 = 0#2 ∧ data.extractLsb' 4 4 = s.status.err ∧
    data.extractLsb' 8 5 = s.status.tlen ∧ data.extractLsb' 13 19 = 0#19

/-- RDCFG (`43_host_access.md` R140, `10_state.md` R33): CFG[7:0] is NROUNDS, 1 to 255, CFG[31:8] is 0; nothing
changes; and no step changes CFG, a reset included. -/
def Obligations.RdcfgReturnsTheRoundCount : Prop :=
  encode .rdcfg = (0x0C000000, 0) ∧ (∀ wdata, decode 0x0C000000 wdata = .ok .rdcfg) ∧
  (∀ s : State, ∃ t data, exec .rdcfg s = .next t ∧ OnlyResponds s t 0 data ∧
    (data.extractLsb' 0 8).toNat = s.nrounds ∧ data.extractLsb' 8 24 = 0#24 ∧ 1 ≤ s.nrounds ∧ s.nrounds ≤ 255) ∧
  ∀ s t : State, step s = .next t → cfgWord t = cfgWord s

/-- RDLEN (`43_host_access.md` R141): returns MLEN, changes nothing. -/
def Obligations.RdlenReturnsTheLength : Prop :=
  encode .rdlen = (0x0D000000, 0) ∧ (∀ wdata, decode 0x0D000000 wdata = .ok .rdlen) ∧
  ∀ s : State, ∃ t, exec .rdlen s = .next t ∧ OnlyResponds s t 0 s.mlen

/-- CLRERR (`43_host_access.md` R142): ERR is 0, TAGV, TLEN, SKD and TAG and everything else stay. -/
def Obligations.ClrerrClearsOnlyTheErrorField : Prop :=
  encode .clrerr = (0x1F000000, 0) ∧ (∀ wdata, decode 0x1F000000 wdata = .ok .clrerr) ∧
  ∀ s : State, ∃ t, exec .clrerr s = .next t ∧ t.status.err = 0 ∧ t.response = some ⟨0, 0⟩ ∧
    t.status.tagv = s.status.tagv ∧ t.status.skd = s.status.skd ∧ t.status.tlen = s.status.tlen ∧
    SameKeys s t ∧ t.mlen = s.mlen ∧ t.tag = s.tag ∧ SameHidden s t ∧ SameWorld s t

/- The Subkey Deriver. -/

/-- DERIVE (`40_subkey_deriver.md` R93, R95): K1 and K2 are DOUBLE(K) and DOUBLE(DOUBLE(K)) whatever they were, SKD is 1,
and nothing else changes. -/
def Obligations.DeriveComputesBothSubkeys : Prop :=
  encode .derive = (0x10000000, 0) ∧ (∀ wdata, decode 0x10000000 wdata = .ok .derive) ∧
  ∀ s : State, ∃ t, exec .derive s = .next t ∧
    t.k1 = double s.k ∧ t.k2 = double (double s.k) ∧ t.status.skd = true ∧ t.response = some ⟨0, 0⟩ ∧
    t.k = s.k ∧ t.mlen = s.mlen ∧ t.tag = s.tag ∧
    t.status.tagv = s.status.tagv ∧ t.status.tlen = s.status.tlen ∧ t.status.err = s.status.err ∧
    SameHidden s t ∧ SameWorld s t

/-- DOUBLE on the 128-bit integer (`40_subkey_deriver.md` R90, R91): a left shift by one bit across the four words, and
the exclusive or with 0x87 when the top bit of X was set. -/
def Obligations.DoubleIsShiftAndReduce : Prop :=
  ∀ x : Quad, value128 (double x) =
    (value128 x <<< 1) ^^^ (if 2 ^ 127 ≤ (value128 x).toNat then 0x87#128 else 0#128)

/-- DOUBLE loses nothing: two values with the same double are the same value (`40_subkey_deriver.md` R92, a statement
the spec marks as general knowledge). -/
def Obligations.DoubleIsInjective : Prop :=
  ∀ x y : Quad, double x = double y → x = y

/- The ARX permutation. The round is the one the spec marks as supplied from general knowledge (log 9). -/

/-- The round in its wire form (`42_permutation.md` R123). -/
def Obligations.RoundHasTheWireForm : Prop :=
  ∀ a b c d : Word,
    let s0 := a + b
    let t1 := rotl b 5 ^^^ s0
    let s2 := c + d
    let t3 := rotl d 8 ^^^ s2
    let u0 := rotl s0 16 + t3
    let u3 := rotl t3 13 ^^^ u0
    let u2 := s2 + t1
    let u1 := rotl t1 7 ^^^ u2
    arxRound ⟨a, b, c, d⟩ = ⟨u0, u1, rotl u2 16, u3⟩

/-- ROTL(a, n): bit i of a moves to bit (i + n) mod 32 (`42_permutation.md` R120). -/
def Obligations.RotlMovesEveryBit : Prop :=
  ∀ (a : Word) (n i : Nat), 1 ≤ n → n ≤ 31 → i < 32 → (rotl a n).getLsbD ((i + n) % 32) = a.getLsbD i

/-- PERMUTE is a bijection for every round count, its inverse the inverse rounds in reverse (`42_permutation.md` R125(c)). -/
def Obligations.PermuteIsABijection : Prop :=
  ∀ (n : Nat) (v : Quad), unpermute n (permute n v) = v ∧ permute n (unpermute n v) = v

/-- Zero is a fixed point of PERMUTE for every round count (`42_permutation.md` R125(b)). -/
def Obligations.PermuteFixesZero : Prop := ∀ n : Nat, permute n Quad.zero = Quad.zero

/-- WORDS and BYTES are inverse to one another, byte 4i + j of BYTES(X) is byte j of X[i], and WORDS is little-endian
(`00_scope.md` R10, R12, `20_memory.md` R57). -/
def Obligations.WordsAndBytesAreInverse : Prop :=
  (∀ x : Quad, words (bytes x) = x) ∧ (∀ b : Block, bytes (words b) = b) ∧
  (∀ (x : Quad) (i j : Fin 4), (bytes x).toList.getD (4 * i.val + j.val) 0 = ((wordAt x i) >>> (8 * j.val)).setWidth 8) ∧
  (∀ (b : Block) (i : Fin 4), (wordAt (words b) i).toNat =
    (b.toList.getD (4 * i.val) 0).toNat + 2 ^ 8 * (b.toList.getD (4 * i.val + 1) 0).toNat +
      2 ^ 16 * (b.toList.getD (4 * i.val + 2) 0).toNat + 2 ^ 24 * (b.toList.getD (4 * i.val + 3) 0).toNat)

/- The MAC Compressor. -/

/-- MAC tl with tl > 16 raises InvalidArgument (`60_exceptions.md` R151, R155, R156, `41_mac_compressor.md` R110): the
first error is recorded, TAG, TAGV and TLEN are cleared, RESP is 1, RDATA 0, and nothing else changes; whatever MSG
holds. -/
def Obligations.MacRejectsTagLengthsAboveSixteen : Prop :=
  ∀ (s : State) (tl : Nat), 16 < tl → ∃ t, exec (.mac tl) s = .next t ∧
    t.status.err = (if s.status.err = 0 then 1 else s.status.err) ∧
    (∀ j : Fin 16, t.tag[j.val] = 0) ∧ t.status.tagv = false ∧ t.status.tlen = 0 ∧
    t.response = some ⟨1, 0⟩ ∧
    SameKeys s t ∧ t.mlen = s.mlen ∧ t.status.skd = s.status.skd ∧ SameHidden s t ∧ SameWorld s t

/-- MAC tl with tl <= 16 over a message that is readable completes with the TAG and TLEN of MACF
(`41_mac_compressor.md` R110, R116, phases R111 to R114): the phase by phase command equals the function without hidden
state. TAGV is 1, V and BLK are cleared, the engine is idle; K, K1, K2, MLEN, SKD, ERR, CFG and MSG stay. -/
def Obligations.MacComputesTheWholeFunction : Prop :=
  ∀ (s : State) (tl : Nat) (m : List Byte), tl ≤ 16 → messageIs s m →
    ∃ t, exec (.mac tl) s = .next t ∧
      (t.tag, t.status.tlen) = macf s.nrounds tl m s.k s.k1 s.k2 ∧
      t.status.tagv = true ∧ t.status.skd = s.status.skd ∧ t.status.err = s.status.err ∧
      t.response = some ⟨0, 0⟩ ∧
      SameKeys s t ∧ t.mlen = s.mlen ∧
      t.v = Quad.zero ∧ t.blk = Block.zero ∧ t.pos = 0 ∧ t.ph = .idle ∧ t.tlat.toNat = tl ∧
      SameWorld s t

/-- A MAC has no meaning exactly where its premise fails (`20_memory.md` R51, `93_implementation_defined.md` U1): with
tl <= 16 it is refused iff MSG lacks a byte below MLEN, and names the first such offset. -/
def Obligations.MacIsRefusedExactlyOnAShortMessage : Prop :=
  ∀ (s : State) (tl : Nat), tl ≤ 16 →
    (completes (exec (.mac tl) s) ↔ messageReadable s) ∧
    (∀ off, off < s.mlen.toNat → readByte s.msg off = none → (∀ a, a < off → (readByte s.msg a).isSome = true) →
      exec (.mac tl) s = .refused (.messageTooShort off))

/-- The ABSORB loop of a MAC runs NNF(MLEN) times (`41_mac_compressor.md` R112, R117): after n <= NNF rounds POS is 16 n,
V is the state after n blocks, and the loop goes on iff n < NNF; after NNF rounds POS = FOFF(MLEN) and
MLEN - POS = RLAST(MLEN). -/
def Obligations.AbsorbLoopRunsOncePerNonFinalBlock : Prop :=
  ∀ (s : State) (tl n : Nat) (m : List Byte), messageIs s m → n ≤ nnf s.mlen.toNat →
    ∃ t, absorbTimes n (initPhase tl s) = .next t ∧ t.ph = .absorb ∧ t.pos.toNat = 16 * n ∧
      t.v = absorbBlocks s.nrounds m s.k n ∧
      (remaining t > 16 ↔ n < nnf s.mlen.toNat) ∧
      (n = nnf s.mlen.toNat → t.pos.toNat = foff s.mlen.toNat ∧ remaining t = rlast s.mlen.toNat ∧
        absorbPhase t = .next { t with ph := .final })

/-- (PH, POS) obeys R36 of `10_state.md`: an idle engine that enters INIT meets the invariant, and every phase of
`41_mac_compressor.md` R115 keeps it. -/
def Obligations.PhasesKeepTheSequencingInvariant : Prop :=
  (∀ (s : State) (tl : Nat), PhaseInv (initPhase tl s)) ∧
  (∀ s t : State, PhaseInv s → phaseStep s = .next t → PhaseInv t) ∧
  (∀ s t : State, PhaseInv s → phaseStep s = .next t →
    (s.ph = .idle → t = s) ∧
    (s.ph = .absorb → remaining s > 16 → t.ph = .absorb ∧ t.pos.toNat = s.pos.toNat + 16) ∧
    (s.ph = .absorb → remaining s ≤ 16 → t = { s with ph := .final }) ∧
    (s.ph = .final → t.ph = .emit ∧ t.pos = s.pos) ∧
    (s.ph = .emit → t.ph = .idle ∧ t.pos = 0))

/-- A MAC in progress, at whatever phase, runs to completion before the engine accepts the next command: the step ends
idle, responds OK and leaves the host's moves in place, whatever the next one is (`30_encoding.md` R71). That a step
can meet an engine in mid-command is the model's own (log 6). -/
def Obligations.MacInProgressRunsToCompletion : Prop :=
  ∀ s : State, PhaseInv s → s.ph ≠ .idle → messageReadable s →
    ∃ t, step s = .next t ∧ t.ph = .idle ∧ t.pos = 0 ∧ t.v = Quad.zero ∧ t.blk = Block.zero ∧
      t.status.tagv = true ∧ t.status.tlen = s.tlat ∧ t.response = some ⟨0, 0⟩ ∧ t.host = s.host

/-- The partition of a message (`41_mac_compressor.md` R101). -/
def Obligations.MessagePartition : Prop :=
  (∀ n : Nat, foff n + rlast n = n ∧ rlast n ≤ 16 ∧ (rlast n = 0 ↔ n = 0) ∧
    (rlast n = 16 ↔ 0 < n ∧ n % 16 = 0) ∧ (n % 16 ≠ 0 → rlast n = n % 16)) ∧
  nnf 4294967295 = 268435455 ∧ foff 4294967295 = 4294967280 ∧ rlast 4294967295 = 15

/-- The last block, byte by byte (`41_mac_compressor.md` R104): sixteen bytes; the raw bytes of the message from FOFF;
where it is not full, 0x01 at index RLAST and 0x00 after it. -/
def Obligations.LastBlockIsRawOrPadded : Prop :=
  ∀ (m : List Byte), (lastBlock m).length = 16 ∧
    ∀ j : Nat, j < 16 → (lastBlock m)[j]? =
      if j < rlast m.length then m[foff m.length + j]?
      else if j = rlast m.length then some 0x01 else some 0x00

/-- The padding of partial blocks is injective: two byte strings shorter than a block with the same padded block are
equal (`41_mac_compressor.md` R104, `70_reset_and_hazards.md` R177). -/
def Obligations.PaddingIsInjective : Prop :=
  ∀ a b : List Byte, a.length ≤ 15 → b.length ≤ 15 → padded a = padded b → a = b

/-- The subkey of the finalisation (`41_mac_compressor.md` R105): where MLEN is a positive multiple of 16 a MAC does not
depend on K2, and everywhere else it does not depend on K1. -/
def Obligations.MacUsesOneSubkeyByTheLength : Prop :=
  ∀ (s t : State) (tl : Nat) (x : Quad), exec (.mac tl) s = .next t →
    (0 < s.mlen.toNat ∧ s.mlen.toNat % 16 = 0 → exec (.mac tl) { s with k2 := x } = .next { t with k2 := x }) ∧
    (¬ (0 < s.mlen.toNat ∧ s.mlen.toNat % 16 = 0) → exec (.mac tl) { s with k1 := x } = .next { t with k1 := x })

/-- A MAC reads no byte at an offset at or beyond MLEN (`20_memory.md` R53): with another message space that agrees below
MLEN it does the same, completed or refused. -/
def Obligations.MacReadsOnlyTheDeclaredBytes : Prop :=
  ∀ (s : State) (tl : Nat) (msg' : List Host.Cell),
    (∀ a, a < s.mlen.toNat → readByte msg' a = readByte s.msg a) →
    (∀ t, exec (.mac tl) s = .next t → exec (.mac tl) { s with msg := msg' } = .next { t with msg := msg' }) ∧
    (∀ r, exec (.mac tl) s = .refused r → exec (.mac tl) { s with msg := msg' } = .refused r)

/-- Determinism over the inputs of the source's `mac` (`41_mac_compressor.md` R100, R118): two engines with the same K,
K1, K2, MLEN, NROUNDS and message bytes give the same tag, the same flags TAGV and TLEN and the same response, whatever
their SKD, ERR, old TAG and hidden state. -/
def Obligations.MacDependsOnlyOnItsInputs : Prop :=
  ∀ (s s' : State) (tl : Nat) (t : State),
    s'.k = s.k → s'.k1 = s.k1 → s'.k2 = s.k2 → s'.mlen = s.mlen → s'.nroundsPred = s.nroundsPred →
    (∀ a, a < s.mlen.toNat → readByte s'.msg a = readByte s.msg a) →
    exec (.mac tl) s = .next t →
    ∃ t', exec (.mac tl) s' = .next t' ∧ t'.tag = t.tag ∧ t'.status.tagv = t.status.tagv ∧
      t'.status.tlen = t.status.tlen ∧ t'.response = t.response

/-- The same MAC issued again over the same message gives the same state again (`41_mac_compressor.md` R110, R118). -/
def Obligations.RepeatedMacGivesTheSameState : Prop :=
  ∀ (s t : State) (tl : Nat), exec (.mac tl) s = .next t → exec (.mac tl) t = .next t

/-- The truncation law (`41_mac_compressor.md` R109): the tag for taglen n is the first n bytes of the tag for taglen 16,
zero-filled, and TLEN is n. -/
def Obligations.ShorterTagIsAPrefixOfTheFullTag : Prop :=
  ∀ (s u : State) (n : Nat), n ≤ 16 → exec (.mac 16) s = .next u →
    ∃ t, exec (.mac n) s = .next t ∧ t.status.tlen.toNat = n ∧
      ∀ j : Fin 16, t.tag[j.val] = if j.val < n then u.tag[j.val] else 0

/-- With the zero key and zero subkeys, a message of whole zero blocks has an all-zero tag for every round count and
every tag length (`42_permutation.md` R125(b), `90_conflicts.md` C7). -/
def Obligations.ZeroKeyZeroMessageTagIsZero : Prop :=
  ∀ (s : State) (tl : Nat), tl ≤ 16 → s.k = Quad.zero → s.k1 = Quad.zero → s.k2 = Quad.zero →
    0 < s.mlen.toNat → s.mlen.toNat % 16 = 0 → (∀ a, a < s.mlen.toNat → readByte s.msg a = some 0) →
    ∃ t, exec (.mac tl) s = .next t ∧ t.tag = Block.zero ∧ t.status.tagv = true ∧ t.status.tlen.toNat = tl

/- Whole-machine rules. -/

/-- Which command writes which bank (`10_state.md` R21 to R25): only WRK writes K, only WRK1 and DERIVE write K1, only
WRK2 and DERIVE write K2. -/
def Obligations.BanksAreWrittenOnlyByTheirCommands : Prop :=
  ∀ (i : Instr) (s t : State), exec i s = .next t →
    (t.k ≠ s.k → ∃ j w, i = .wrk j w) ∧
    (t.k1 ≠ s.k1 → (∃ j w, i = .wrk1 j w) ∨ i = .derive) ∧
    (t.k2 ≠ s.k2 → (∃ j w, i = .wrk2 j w) ∨ i = .derive) ∧
    (t.mlen ≠ s.mlen → ∃ n, i = .wrlen n)

/-- Only MAC changes TAG, TAGV and TLEN (`70_reset_and_hazards.md` R178, `10_state.md` R34). -/
def Obligations.TagIsWrittenOnlyByMac : Prop :=
  ∀ (i : Instr) (s t : State), exec i s = .next t →
    t.tag ≠ s.tag ∨ t.status.tagv ≠ s.status.tagv ∨ t.status.tlen ≠ s.status.tlen → ∃ tl, i = .mac tl

/-- SKD is set by DERIVE alone and cleared by WRK, WRK1 and WRK2 alone (`10_state.md` R34). -/
def Obligations.SkdFollowsDeriveAndWrites : Prop :=
  ∀ (i : Instr) (s t : State), exec i s = .next t →
    (t.status.skd = true ↔ i = .derive ∨
      (s.status.skd = true ∧ ∀ j w, i ≠ .wrk j w ∧ i ≠ .wrk1 j w ∧ i ≠ .wrk2 j w))

/-- ERR keeps the first error over every step, legal or illegal command, message or idle, but a reset or a CLRERR
(`60_exceptions.md` R159, `10_state.md` R34). -/
def Obligations.FirstErrorStaysUntilCleared : Prop :=
  ∀ s t : State, step s = .next t → s.status.err ≠ 0 →
    (s.ph = .idle → ∀ rest, s.host ≠ .reset :: rest ∧ ∀ wdata, s.host ≠ .command 0x1F000000 wdata :: rest) →
    t.status.err = s.status.err

/-- An error does not lock the engine: what a command does to everything but ERR does not depend on ERR, and neither
does its response, but that of RDSTAT, which shows ERR (`60_exceptions.md` R159). -/
def Obligations.ErrorFieldLocksNothing : Prop :=
  ∀ (i : Instr) (s t : State) (e : BitVec 4), exec i s = .next t →
    ∃ t', exec i { s with status := { s.status with err := e } } = .next t' ∧
      (i ≠ .rdstat → t'.response = t.response) ∧
      { t' with status := { t'.status with err := t.status.err }, response := t.response } = t

/-- No command reads the key but DERIVE and MAC (`43_host_access.md` R143, `10_state.md` R25): with another key, every
other command responds the same and leaves the same state but for the key. -/
def Obligations.KeyIsReadOnlyByDeriveAndMac : Prop :=
  ∀ (i : Instr) (s : State) (x : Quad), i ≠ .derive → (∀ tl, i ≠ .mac tl) →
    ∃ t t', exec i s = .next t ∧ exec i { s with k := x } = .next t' ∧ t'.response = t.response ∧ { t' with k := t.k } = t

/-- The hidden state cannot be observed (`10_state.md` R38): with other V, POS, TLAT and BLK, every command of an engine
responds the same and leaves the same host-visible state. -/
def Obligations.HiddenStateIsUnobservable : Prop :=
  ∀ (i : Instr) (s t : State) (v : Quad) (pos : Word) (tlat : BitVec 5) (blk : Block), exec i s = .next t →
    ∃ t', exec i { s with v := v, pos := pos, tlat := tlat, blk := blk } = .next t' ∧
      { t' with v := t.v, pos := t.pos, tlat := t.tlat, blk := t.blk } = t

/-- Every command completes and responds (`30_encoding.md` R70, R71, `20_memory.md` R68): a next state, unless it is a
MAC with a legal tag length whose message is not readable; RESP is 0, 1 or 2, RDATA is 0 where RESP is not 0, RESP = 1
only for a MAC with TL > 16; an idle engine is idle again. -/
def Obligations.EveryCommandCompletesAndResponds : Prop :=
  ∀ (i : Instr) (s : State), (∀ tl, i = .mac tl → tl ≤ 16 → messageReadable s) →
    ∃ t r, exec i s = .next t ∧ t.response = some r ∧ (r.resp = 0 ∨ r.resp = 1) ∧
      (r.resp = 1 ↔ ∃ tl, i = .mac tl ∧ 16 < tl) ∧ (r.resp ≠ 0 → r.rdata = 0) ∧
      (s.ph = .idle → t.ph = .idle)

/-- The reset state meets the invariant of the machine between commands (`10_state.md` R39, R40). -/
def Obligations.ResetStateMeetsTheInvariant : Prop := Inv State.reset

/-- Every step keeps the invariant of the machine between commands (`10_state.md` R31, R32, R39): PH = IDLE, POS = 0,
V and BLK zero, TLEN = 0 where TAGV = 0, TAG zero at and beyond TLEN, ERR at most 2, TLEN at most 16; SKD = 1 only with
the subkeys of the present key; the message space in its canonical form. -/
def Obligations.StepKeepsTheBetweenCommandsInvariant : Prop :=
  ∀ s t : State, Inv s → step s = .next t → Inv t

/-- From the invariant a step stops only at a MAC command with a legal tag length and an unreadable message
(`20_memory.md` R51, R68, `30_encoding.md` R71). -/
def Obligations.StepStopsOnlyOnAShortMessage : Prop :=
  ∀ s : State, Inv s →
    (completes (step s) ↔ ¬ ∃ cw wdata rest tl, s.host = .command cw wdata :: rest ∧ decode cw wdata = .ok (.mac tl) ∧
      tl ≤ 16 ∧ ¬ messageReadable s)
end

