-- ==== Sys2Proof/Laws/Decode.lean ====
section
/-! SUPPORT. The fields of a command word, and the decoder in one inversion lemma (R72 to R79). -/

namespace Sys2Proof

@[simp] theorem opcField_commandWord (opc arg : BitVec 8) : opcField (commandWord opc arg) = opc := by
  unfold commandWord opcField
  ext i hi
  simp [BitVec.getElem_extractLsb', show 24 + i < 32 by omega, BitVec.getLsbD_eq_getElem hi,
    BitVec.getLsbD_of_ge arg (24 + i) (by omega)]

@[simp] theorem mbzField_commandWord (opc arg : BitVec 8) : mbzField (commandWord opc arg) = 0 := by
  unfold commandWord mbzField
  ext i hi
  simp [BitVec.getElem_extractLsb']
  omega

@[simp] theorem argField_commandWord (opc arg : BitVec 8) : argField (commandWord opc arg) = arg := by
  unfold commandWord argField
  ext i hi
  simp [BitVec.getElem_extractLsb', show i < 24 by omega, show i < 32 by omega, BitVec.getLsbD_eq_getElem hi]

@[simp] theorem argHighField_commandWord (opc arg : BitVec 8) :
    argHighField (commandWord opc arg) = arg.extractLsb' 2 6 := by
  unfold commandWord argHighField
  ext i hi
  simp [BitVec.getElem_extractLsb', show 2 + i < 24 by omega, show 2 + i < 32 by omega]

@[simp] theorem idxField_commandWord (opc arg : BitVec 8) :
    idxField (commandWord opc arg) = (arg.extractLsb' 0 2).toFin := by
  unfold commandWord idxField
  congr 1
  ext i hi
  simp [BitVec.getElem_extractLsb', show i < 24 by omega, show i < 32 by omega]

/-- A word with MBZ zero is its opcode and its operand byte (R72). -/
theorem commandWord_fields {cw : Word} (h : mbzField cw = 0) : commandWord (opcField cw) (argField cw) = cw := by
  unfold mbzField at h
  unfold commandWord opcField argField
  ext i hi
  simp only [BitVec.getElem_or, BitVec.getElem_shiftLeft, BitVec.zeroExtend, BitVec.getElem_setWidth,
    BitVec.getLsbD_extractLsb']
  have hm := congrArg (fun b => b.getLsbD (i - 8)) h
  simp only [BitVec.getLsbD_extractLsb', BitVec.ofNat_eq_ofNat, BitVec.getLsbD_zero] at hm
  rcases Nat.lt_or_ge i 8 with h1 | h1
  · simp [show i < 24 by omega, h1]
    simp [BitVec.getLsbD_eq_getElem hi]
  · rcases Nat.lt_or_ge i 24 with h2 | h2
    · have hm' : cw[i] = false := by
        simpa [show i - 8 < 16 by omega, show 8 + (i - 8) = i by omega, BitVec.getLsbD_eq_getElem hi] using hm
      simp [h2, show ¬ i < 8 by omega, hm']
    · simp [show ¬ i < 24 by omega, show i - 24 < 8 by omega, show ¬ i < 8 by omega, show 24 + (i - 24) = i by omega]
      simp [BitVec.getLsbD_eq_getElem hi]

theorem indexBits_of_index (i : Fin 4) : (BitVec.extractLsb' 0 2 (BitVec.ofNat 8 i.val)).toFin = i := by
  revert i; decide

theorem highBits_of_index (i : Fin 4) : BitVec.extractLsb' 2 6 (BitVec.ofNat 8 i.val) = 0 := by
  revert i; decide

theorem arg_of_highBits : ∀ arg : BitVec 8, arg.extractLsb' 2 6 = 0 →
    arg = BitVec.ofNat 8 ((arg.extractLsb' 0 2).toFin : Fin 4).val := by decide

/-- The operand byte of an X-format word is its index (R74). -/
theorem arg_eq_index {cw : Word} (hm : mbzField cw = 0) (h : argHighField cw = 0) :
    argField cw = BitVec.ofNat 8 (idxField cw).val := by
  have hw := commandWord_fields hm
  rw [← hw, argHighField_commandWord] at h
  rw [← hw, argField_commandWord, idxField_commandWord]
  exact arg_of_highBits _ h

/-- The decoder in one lemma: what is known of a word that decodes (R79). -/
theorem decode_ok {cw wdata : Word} {i : Instr} (h : decode cw wdata = .ok i) : mbzField cw = 0 ∧
    ((argField cw = 0 ∧
        ((opcField cw = 0x00#8 ∧ i = .nop) ∨ (opcField cw = 0x04#8 ∧ i = .wrlen wdata) ∨
          (opcField cw = 0x0B#8 ∧ i = .rdstat) ∨ (opcField cw = 0x0C#8 ∧ i = .rdcfg) ∨
          (opcField cw = 0x0D#8 ∧ i = .rdlen) ∨ (opcField cw = 0x10#8 ∧ i = .derive) ∨
          (opcField cw = 0x1F#8 ∧ i = .clrerr))) ∨
      (argHighField cw = 0 ∧
        ((opcField cw = 0x01#8 ∧ i = .wrk (idxField cw) wdata) ∨ (opcField cw = 0x02#8 ∧ i = .wrk1 (idxField cw) wdata) ∨
          (opcField cw = 0x03#8 ∧ i = .wrk2 (idxField cw) wdata) ∨ (opcField cw = 0x08#8 ∧ i = .rdk1 (idxField cw)) ∨
          (opcField cw = 0x09#8 ∧ i = .rdk2 (idxField cw)) ∨ (opcField cw = 0x0A#8 ∧ i = .rdtag (idxField cw)))) ∨
      (opcField cw = 0x11#8 ∧ i = .mac (argField cw).toNat)) := by
  unfold decode at h
  split at h
  · cases h
  · rename_i hm
    refine ⟨by simpa using hm, ?_⟩
    unfold decodeZ decodeX decodeT at h
    split at h <;> (try split at h) <;> (try cases h) <;> simp_all

/-- Masking the k low bits off is a shift there and back. -/
theorem and_mask_eq (cw : Word) (k : Nat) (M : Word) (hM : ∀ i : Fin 32, M.getLsbD i.val = decide (k ≤ i.val)) :
    cw &&& M = (cw >>> k) <<< k := by
  ext i hi
  have := hM ⟨i, hi⟩
  simp only [BitVec.getLsbD_eq_getElem hi] at this
  simp [this]
  rcases Nat.lt_or_ge i k with h | h
  · simp [h, Nat.not_le_of_lt h]
  · simp [h, Nat.not_lt_of_le h, BitVec.getLsbD_eq_getElem hi]

/-- A full match of a Z-format row is its three fields (R73, R77). -/
theorem covers_Z (cw : Word) (o : BitVec 8) (m : Word) (hm : m = commandWord o 0) :
    (cw &&& 0xFFFFFFFF#32 == m) = true ↔ (mbzField cw = 0 ∧ opcField cw = o ∧ argField cw = 0) := by
  subst hm
  rw [beq_iff_eq, show (0xFFFFFFFF#32) = BitVec.allOnes 32 by decide, BitVec.and_allOnes]
  constructor
  · rintro rfl; simp
  · rintro ⟨h, rfl, h2⟩; rw [← h2, commandWord_fields h]

/-- A match of a row whose mask leaves the k low bits open. -/
theorem covers_open (cw M m : Word) (k : Nat) (hM : ∀ i : Fin 32, M.getLsbD i.val = decide (k ≤ i.val)) (o : BitVec 8) (hm : m = commandWord o 0) (hk : k ≤ 8) :
    (cw &&& M == m) = true ↔ (mbzField cw = 0 ∧ opcField cw = o ∧ (argField cw) >>> k = 0) := by
  rw [beq_iff_eq, and_mask_eq cw k M hM, hm]
  have hbit : ∀ i, i < k → (commandWord o 0).getLsbD i = false := by
    intro i hi; unfold commandWord; simp; omega
  constructor
  · intro h
    have h' : ∀ i, k ≤ i → i < 32 → cw.getLsbD i = (commandWord o 0).getLsbD i := by
      intro i hi hi2
      rw [← h]; simp [hi2, Nat.not_lt_of_le hi, show k + (i - k) = i by omega]
    have e1 : mbzField cw = mbzField (commandWord o 0) := by
      unfold mbzField; ext i hi; simp only [BitVec.getElem_extractLsb']; exact h' _ (by omega) (by omega)
    have e2 : opcField cw = opcField (commandWord o 0) := by
      unfold opcField; ext i hi; simp only [BitVec.getElem_extractLsb']; exact h' _ (by omega) (by omega)
    refine ⟨by simpa using e1, by simpa using e2, ?_⟩
    ext i hi
    rcases Nat.lt_or_ge (k + i) 8 with h8 | h8
    · have := h' (k+i) (by omega) (by omega)
      have e3 : argField (commandWord o 0) = 0 := by simp
      have e4 := congrArg (fun b => b.getLsbD (k+i)) e3
      simp [argField, h8] at e4
      simp only [BitVec.getElem_ushiftRight, argField, BitVec.getLsbD_extractLsb', Nat.zero_add, this, h8, decide_true,
        Bool.true_and]
      simp at e4 ⊢; exact e4
    · simp [BitVec.getLsbD_of_ge _ _ h8]
  · rintro ⟨h1, h2, h3⟩
    have h4 : cw = commandWord o (argField cw) := by rw [← h2, commandWord_fields h1]
    apply BitVec.eq_of_getLsbD_eq
    intro i hi
    rw [BitVec.getLsbD_shiftLeft, BitVec.getLsbD_ushiftRight]
    rcases Nat.lt_or_ge i k with h | h
    · rw [hbit i h]; simp [h]
    · rw [show k + (i-k) = i by omega]
      have e : (argField cw).getLsbD i = false := by
        have := congrArg (fun b => b.getLsbD (i - k)) h3
        rw [BitVec.getLsbD_ushiftRight, show k + (i-k) = i by omega] at this
        simpa using this
      have : cw.getLsbD i = (commandWord o 0).getLsbD i := by
        rw [h4]
        generalize argField cw = g at e
        unfold commandWord
        simp only [BitVec.getLsbD_or, BitVec.zeroExtend, BitVec.getLsbD_setWidth, e]
        simp
      rw [this]; simp [hi, Nat.not_lt_of_le h]

theorem argHighField_eq (cw : Word) : argHighField cw = (argField cw).extractLsb' 2 6 := by
  unfold argHighField argField
  ext i hi
  simp [BitVec.getElem_extractLsb']

theorem shiftRight_eight : ∀ a : BitVec 8, a >>> 8 = 0 := by decide

theorem shiftRight_two : ∀ a : BitVec 8, a >>> 2 = 0 ↔ a.extractLsb' 2 6 = 0 := by decide

/-- A match of an X-format row is its three fields (R74, R77). -/
theorem covers_X (cw : Word) (o : BitVec 8) (m : Word) (hm : m = commandWord o 0) :
    (cw &&& 0xFFFFFFFC#32 == m) = true ↔ (mbzField cw = 0 ∧ opcField cw = o ∧ argHighField cw = 0) := by
  rw [covers_open cw _ m 2 (by decide) o hm (by omega), shiftRight_two, ← argHighField_eq]

/-- A match of the T-format row is its two fields (R75, R77). -/
theorem covers_T (cw : Word) (o : BitVec 8) (m : Word) (hm : m = commandWord o 0) :
    (cw &&& 0xFFFFFF00#32 == m) = true ↔ (mbzField cw = 0 ∧ opcField cw = o) := by
  rw [covers_open cw _ m 8 (by decide) o hm (by omega), shiftRight_eight]
  simp

end Sys2Proof
end

