-- ==== Sys2Proof/Laws/Memory.lean ====
section
/-! SUPPORT. The message space and the tag buffer: the canonical form is kept, and what a read says (R50 to R55). -/

namespace Sys2Proof.Machine

theorem cellsFrom_wf (bs : List Byte) : ∀ a, a + bs.length ≤ Config.msgSpace → wfFrom a (cellsFrom a bs) = true := by
  induction bs with
  | nil => intro a _; rfl
  | cons b rest ih =>
    intro a h
    simp only [List.length_cons] at h
    have hlt : a < Config.msgSpace := by omega
    simp [cellsFrom, wfFrom, hlt, ih (a + 1) (by omega)]

/-- The one operation that changes the message space keeps its canonical form. -/
theorem placeMessage_wf (bs : List Byte) : memoryWf (placeMessage bs) = true := by
  apply cellsFrom_wf
  simp [List.length_take]

theorem readByte_below {m : Memory} : ∀ {lo a : Nat}, wfFrom lo m = true → a < lo → readByte m a = none := by
  induction m with
  | nil => intros; rfl
  | cons c rest ih =>
    obtain ⟨x, b⟩ := c
    intro lo a h hlt
    simp only [wfFrom, Bool.and_eq_true, decide_eq_true_eq] at h
    have hne : x ≠ a := by omega
    simp only [readByte, hne, if_false]
    exact ih h.2 (by omega)

/-- Equal bytes at every offset make equal message spaces: the form is canonical. -/
theorem wf_ext : ∀ {m m' : Memory} {lo : Nat}, wfFrom lo m = true → wfFrom lo m' = true →
    (∀ a, readByte m a = readByte m' a) → m = m' := by
  intro m
  induction m with
  | nil =>
    intro m' lo _ _ h
    cases m' with
    | nil => rfl
    | cons c rest => have := h c.1; simp [readByte] at this
  | cons c rest ih =>
    intro m' lo hw hw' h
    cases m' with
    | nil => have := h c.1; simp [readByte] at this
    | cons c' rest' =>
      obtain ⟨x, b⟩ := c
      obtain ⟨x', b'⟩ := c'
      simp only [wfFrom, Bool.and_eq_true, decide_eq_true_eq] at hw hw'
      have hxx : x = x' := by
        rcases Nat.lt_trichotomy x x' with hlt | heq | hgt
        · have := h x
          simp [readByte, Nat.ne_of_gt hlt, readByte_below hw'.2 (show x < x' + 1 by omega)] at this
        · exact heq
        · have := h x'
          simp [readByte, Nat.ne_of_gt hgt, readByte_below hw.2 (show x' < x + 1 by omega)] at this
      subst hxx
      have hb : b = b' := by have := h x; simpa [readByte] using this
      subst hb
      have : rest = rest' := by
        apply ih hw.2 hw'.2
        intro a
        by_cases ha : x = a
        · subst ha
          rw [readByte_below hw.2 (by omega), readByte_below hw'.2 (by omega)]
        · have := h a
          simpa [readByte, ha] using this
      rw [this]

theorem readByte_cellsFrom (bs : List Byte) : ∀ a x,
    readByte (cellsFrom a bs) x = if x < a then none else bs[x - a]? := by
  induction bs with
  | nil => intro a x; simp [cellsFrom, readByte]
  | cons b rest ih =>
    intro a x
    simp only [cellsFrom, readByte, ih]
    rcases Nat.lt_trichotomy a x with h | h | h
    · obtain ⟨d, rfl⟩ : ∃ d, x = a + 1 + d := ⟨x - a - 1, by omega⟩
      have e1 : a + 1 + d - (a + 1) = d := by omega
      have e2 : a + 1 + d - a = d + 1 := by omega
      simp [show ¬ a = a + 1 + d by omega, show ¬ a + 1 + d < a + 1 by omega, show ¬ a + 1 + d < a by omega, e1, e2]
    · subst h; simp
    · simp [show ¬ a = x by omega, show x < a + 1 by omega, h]

/-- MemRead answers the bytes in order, and answers iff all of them exist (R52). -/
theorem memRead_eq_some_iff (m : Memory) : ∀ (n a : Nat) (l : List Byte),
    memRead m a n = some l ↔ l.length = n ∧ ∀ j, j < n → readByte m (a + j) = l[j]? := by
  intro n
  induction n with
  | zero =>
    intro a l
    simp only [memRead, Option.some.injEq]
    constructor
    · rintro rfl; simp
    · rintro ⟨h, -⟩; exact (List.length_eq_zero_iff.mp h).symm
  | succ n ih =>
    intro a l
    simp only [memRead]
    cases hb : readByte m a with
    | none =>
      constructor
      · intro h; cases h
      · rintro ⟨hl, h⟩
        have h0 := h 0 (by omega)
        simp only [Nat.add_zero, hb] at h0
        have : l.length ≤ 0 := List.getElem?_eq_none_iff.mp h0.symm
        omega
    | some b =>
      constructor
      · intro h
        obtain ⟨r, hr, rfl⟩ := Option.map_eq_some_iff.mp h
        obtain ⟨hl, hj⟩ := (ih (a + 1) r).mp hr
        refine ⟨by simp [hl], fun j hlt => ?_⟩
        cases j with
        | zero => simpa using hb
        | succ j =>
          have := hj j (by omega)
          rw [show a + (j + 1) = a + 1 + j by omega]
          simpa using this
      · rintro ⟨hl, h⟩
        cases l with
        | nil => simp at hl
        | cons c r =>
          have h0 := h 0 (by omega)
          simp only [Nat.add_zero, hb, List.getElem?_cons_zero, Option.some.injEq] at h0
          subst h0
          have : memRead m (a + 1) n = some r := by
            refine (ih (a + 1) r).mpr ⟨by simpa using hl, fun j hlt => ?_⟩
            have := h (j + 1) (by omega)
            rw [show a + 1 + j = a + (j + 1) by omega]
            simpa using this
          simp [this]

theorem memRead_isSome_iff (m : Memory) (n a : Nat) :
    (memRead m a n).isSome = true ↔ ∀ j, j < n → (readByte m (a + j)).isSome = true := by
  induction n generalizing a with
  | zero => simp [memRead]
  | succ n ih =>
    simp only [memRead]
    cases hb : readByte m a with
    | none =>
      constructor
      · intro h; cases h
      · intro h
        have := h 0 (by omega)
        simp [hb] at this
    | some b =>
      rw [Option.isSome_map, ih]
      constructor
      · intro h j hj
        cases j with
        | zero => simp [hb]
        | succ j => rw [show a + (j + 1) = a + 1 + j by omega]; exact h j (by omega)
      · intro h j hj
        rw [show a + 1 + j = a + (j + 1) by omega]
        exact h (j + 1) (by omega)

theorem memRead_congr {m m' : Memory} (n a : Nat) (h : ∀ j, j < n → readByte m (a + j) = readByte m' (a + j)) :
    memRead m a n = memRead m' a n := by
  induction n generalizing a with
  | zero => rfl
  | succ n ih =>
    have h0 := h 0 (by omega)
    simp only [Nat.add_zero] at h0
    have ht : memRead m (a + 1) n = memRead m' (a + 1) n := by
      apply ih
      intro j hj
      rw [show a + 1 + j = a + (j + 1) by omega]
      exact h (j + 1) (by omega)
    simp only [memRead, h0, ht]

/-- A read inside a read is the piece of its bytes. -/
theorem memRead_piece {m : Memory} {n a p q : Nat} {l : List Byte} (h : memRead m a n = some l) (hq : p + q ≤ n) :
    memRead m (a + p) q = some ((l.drop p).take q) := by
  obtain ⟨hl, hj⟩ := (memRead_eq_some_iff m n a l).mp h
  refine (memRead_eq_some_iff m q (a + p) _).mpr ⟨by simp [hl]; omega, fun j hlt => ?_⟩
  rw [show a + p + j = a + (p + j) by omega, hj (p + j) (by omega)]
  simp [hlt]

/-- Where a read has no answer, the first offset without a byte is the one `firstMissing` names. -/
theorem firstMissing_spec {m : Memory} {n a off : Nat} (hoff : a ≤ off ∧ off < a + n) (hnone : readByte m off = none)
    (hall : ∀ x, a ≤ x → x < off → (readByte m x).isSome = true) :
    memRead m a n = none ∧ firstMissing m a n = off := by
  induction n generalizing a with
  | zero => omega
  | succ n ih =>
    rcases Nat.eq_or_lt_of_le hoff.1 with heq | hlt
    · subst heq
      simp [memRead, firstMissing, hnone]
    · have hs := hall a (Nat.le_refl a) hlt
      obtain ⟨h1, h2⟩ := ih (a := a + 1) ⟨by omega, by omega⟩ (fun x hx hx' => hall x (by omega) hx')
      obtain ⟨b, hb⟩ := Option.isSome_iff_exists.mp hs
      simp [memRead, firstMissing, hb, h1, h2]

/-- MemWrite of the whole tag buffer (R55). -/
theorem memWriteTag_whole (tag b : Block) : memWriteTag tag 0 b.toList = b := by
  apply Vector.ext
  intro i hi
  simp [memWriteTag, List.getD]

@[simp] theorem keepFirst_get (n : Nat) (b : Block) (j : Nat) (h : j < 16) :
    (keepFirst n b)[j] = if j < n then b[j] else 0 := by
  simp [keepFirst]

@[simp] theorem Block.zero_get (j : Nat) (h : j < 16) : Block.zero[j] = 0 := by
  simp [Block.zero]

end Sys2Proof.Machine
end

