-- ==== Sys2Proof/Laws/State.lean ====
section
/-! SUPPORT. One lemma per field per update of the state, and of STATUS, so that no later proof unfolds an update. -/

namespace Sys2Proof.Machine

/- INIT (R111). -/
@[simp] theorem initPhase_k (tl : Nat) (s : State) : (initPhase tl s).k = s.k := rfl
@[simp] theorem initPhase_k1 (tl : Nat) (s : State) : (initPhase tl s).k1 = s.k1 := rfl
@[simp] theorem initPhase_k2 (tl : Nat) (s : State) : (initPhase tl s).k2 = s.k2 := rfl
@[simp] theorem initPhase_v (tl : Nat) (s : State) : (initPhase tl s).v = s.k := rfl
@[simp] theorem initPhase_mlen (tl : Nat) (s : State) : (initPhase tl s).mlen = s.mlen := rfl
@[simp] theorem initPhase_tag (tl : Nat) (s : State) : (initPhase tl s).tag = s.tag := rfl
@[simp] theorem initPhase_status (tl : Nat) (s : State) : (initPhase tl s).status = tagPending s.status := rfl
@[simp] theorem initPhase_nroundsPred (tl : Nat) (s : State) : (initPhase tl s).nroundsPred = s.nroundsPred := rfl
@[simp] theorem initPhase_ph (tl : Nat) (s : State) : (initPhase tl s).ph = .absorb := rfl
@[simp] theorem initPhase_pos (tl : Nat) (s : State) : (initPhase tl s).pos = 0 := rfl
@[simp] theorem initPhase_tlat (tl : Nat) (s : State) : (initPhase tl s).tlat = BitVec.ofNat 5 tl := rfl
@[simp] theorem initPhase_blk (tl : Nat) (s : State) : (initPhase tl s).blk = s.blk := rfl
@[simp] theorem initPhase_msg (tl : Nat) (s : State) : (initPhase tl s).msg = s.msg := rfl
@[simp] theorem initPhase_host (tl : Nat) (s : State) : (initPhase tl s).host = s.host := rfl
@[simp] theorem initPhase_response (tl : Nat) (s : State) : (initPhase tl s).response = s.response := rfl

/- EMIT (R114). -/
@[simp] theorem emitPhase_k (s : State) : (emitPhase s).k = s.k := rfl
@[simp] theorem emitPhase_k1 (s : State) : (emitPhase s).k1 = s.k1 := rfl
@[simp] theorem emitPhase_k2 (s : State) : (emitPhase s).k2 = s.k2 := rfl
@[simp] theorem emitPhase_v (s : State) : (emitPhase s).v = Quad.zero := rfl
@[simp] theorem emitPhase_mlen (s : State) : (emitPhase s).mlen = s.mlen := rfl
@[simp] theorem emitPhase_tag (s : State) : (emitPhase s).tag = memWriteTag s.tag 0 (keepFirst s.tlat.toNat (bytes s.v)).toList := rfl
@[simp] theorem emitPhase_status (s : State) : (emitPhase s).status = tagReady s.tlat s.status := rfl
@[simp] theorem emitPhase_nroundsPred (s : State) : (emitPhase s).nroundsPred = s.nroundsPred := rfl
@[simp] theorem emitPhase_ph (s : State) : (emitPhase s).ph = .idle := rfl
@[simp] theorem emitPhase_pos (s : State) : (emitPhase s).pos = 0 := rfl
@[simp] theorem emitPhase_tlat (s : State) : (emitPhase s).tlat = s.tlat := rfl
@[simp] theorem emitPhase_blk (s : State) : (emitPhase s).blk = Block.zero := rfl
@[simp] theorem emitPhase_msg (s : State) : (emitPhase s).msg = s.msg := rfl
@[simp] theorem emitPhase_host (s : State) : (emitPhase s).host = s.host := rfl
@[simp] theorem emitPhase_response (s : State) : (emitPhase s).response = s.response := rfl

/- The InvalidArgument entry (R156). -/
@[simp] theorem withdrawTag_k (s : State) : (withdrawTag s).k = s.k := rfl
@[simp] theorem withdrawTag_k1 (s : State) : (withdrawTag s).k1 = s.k1 := rfl
@[simp] theorem withdrawTag_k2 (s : State) : (withdrawTag s).k2 = s.k2 := rfl
@[simp] theorem withdrawTag_v (s : State) : (withdrawTag s).v = s.v := rfl
@[simp] theorem withdrawTag_mlen (s : State) : (withdrawTag s).mlen = s.mlen := rfl
@[simp] theorem withdrawTag_tag (s : State) : (withdrawTag s).tag = Block.zero := rfl
@[simp] theorem withdrawTag_status (s : State) : (withdrawTag s).status = tagWithdrawn s.status := rfl
@[simp] theorem withdrawTag_nroundsPred (s : State) : (withdrawTag s).nroundsPred = s.nroundsPred := rfl
@[simp] theorem withdrawTag_ph (s : State) : (withdrawTag s).ph = s.ph := rfl
@[simp] theorem withdrawTag_pos (s : State) : (withdrawTag s).pos = s.pos := rfl
@[simp] theorem withdrawTag_tlat (s : State) : (withdrawTag s).tlat = s.tlat := rfl
@[simp] theorem withdrawTag_blk (s : State) : (withdrawTag s).blk = s.blk := rfl
@[simp] theorem withdrawTag_msg (s : State) : (withdrawTag s).msg = s.msg := rfl
@[simp] theorem withdrawTag_host (s : State) : (withdrawTag s).host = s.host := rfl
@[simp] theorem withdrawTag_response (s : State) : (withdrawTag s).response = s.response := rfl

/- Handing a command to the engine. -/
@[simp] theorem withFetchWord_k (s : State) (nbits w : Nat) : (s.withFetchWord nbits w).k = s.k := rfl
@[simp] theorem withFetchWord_k1 (s : State) (nbits w : Nat) : (s.withFetchWord nbits w).k1 = s.k1 := rfl
@[simp] theorem withFetchWord_k2 (s : State) (nbits w : Nat) : (s.withFetchWord nbits w).k2 = s.k2 := rfl
@[simp] theorem withFetchWord_v (s : State) (nbits w : Nat) : (s.withFetchWord nbits w).v = s.v := rfl
@[simp] theorem withFetchWord_mlen (s : State) (nbits w : Nat) : (s.withFetchWord nbits w).mlen = s.mlen := rfl
@[simp] theorem withFetchWord_tag (s : State) (nbits w : Nat) : (s.withFetchWord nbits w).tag = s.tag := rfl
@[simp] theorem withFetchWord_status (s : State) (nbits w : Nat) : (s.withFetchWord nbits w).status = s.status := rfl
@[simp] theorem withFetchWord_nroundsPred (s : State) (nbits w : Nat) : (s.withFetchWord nbits w).nroundsPred = s.nroundsPred := rfl
@[simp] theorem withFetchWord_ph (s : State) (nbits w : Nat) : (s.withFetchWord nbits w).ph = .idle := rfl
@[simp] theorem withFetchWord_pos (s : State) (nbits w : Nat) : (s.withFetchWord nbits w).pos = s.pos := rfl
@[simp] theorem withFetchWord_tlat (s : State) (nbits w : Nat) : (s.withFetchWord nbits w).tlat = s.tlat := rfl
@[simp] theorem withFetchWord_blk (s : State) (nbits w : Nat) : (s.withFetchWord nbits w).blk = s.blk := rfl
@[simp] theorem withFetchWord_msg (s : State) (nbits w : Nat) : (s.withFetchWord nbits w).msg = s.msg := rfl
@[simp] theorem withFetchWord_host (s : State) (nbits w : Nat) : (s.withFetchWord nbits w).host = .command (tableCw nbits w) (tableWdata nbits w) :: s.host := rfl
@[simp] theorem withFetchWord_response (s : State) (nbits w : Nat) : (s.withFetchWord nbits w).response = s.response := rfl

/- STATUS (R34). -/
@[simp] theorem subkeysDerived_tagv (st : Status) : (subkeysDerived st).tagv = st.tagv := rfl
@[simp] theorem subkeysDerived_skd (st : Status) : (subkeysDerived st).skd = true := rfl
@[simp] theorem subkeysDerived_err (st : Status) : (subkeysDerived st).err = st.err := rfl
@[simp] theorem subkeysDerived_tlen (st : Status) : (subkeysDerived st).tlen = st.tlen := rfl
@[simp] theorem subkeysStale_tagv (st : Status) : (subkeysStale st).tagv = st.tagv := rfl
@[simp] theorem subkeysStale_skd (st : Status) : (subkeysStale st).skd = false := rfl
@[simp] theorem subkeysStale_err (st : Status) : (subkeysStale st).err = st.err := rfl
@[simp] theorem subkeysStale_tlen (st : Status) : (subkeysStale st).tlen = st.tlen := rfl
@[simp] theorem tagPending_tagv (st : Status) : (tagPending st).tagv = false := rfl
@[simp] theorem tagPending_skd (st : Status) : (tagPending st).skd = st.skd := rfl
@[simp] theorem tagPending_err (st : Status) : (tagPending st).err = st.err := rfl
@[simp] theorem tagPending_tlen (st : Status) : (tagPending st).tlen = st.tlen := rfl
@[simp] theorem tagReady_tagv (t : BitVec 5) (st : Status) : (tagReady t st).tagv = true := rfl
@[simp] theorem tagReady_skd (t : BitVec 5) (st : Status) : (tagReady t st).skd = st.skd := rfl
@[simp] theorem tagReady_err (t : BitVec 5) (st : Status) : (tagReady t st).err = st.err := rfl
@[simp] theorem tagReady_tlen (t : BitVec 5) (st : Status) : (tagReady t st).tlen = t := rfl
@[simp] theorem tagWithdrawn_tagv (st : Status) : (tagWithdrawn st).tagv = false := rfl
@[simp] theorem tagWithdrawn_skd (st : Status) : (tagWithdrawn st).skd = st.skd := rfl
@[simp] theorem tagWithdrawn_err (st : Status) : (tagWithdrawn st).err = st.err := rfl
@[simp] theorem tagWithdrawn_tlen (st : Status) : (tagWithdrawn st).tlen = 0 := rfl
@[simp] theorem errCleared_tagv (st : Status) : (errCleared st).tagv = st.tagv := rfl
@[simp] theorem errCleared_skd (st : Status) : (errCleared st).skd = st.skd := rfl
@[simp] theorem errCleared_err (st : Status) : (errCleared st).err = 0 := rfl
@[simp] theorem errCleared_tlen (st : Status) : (errCleared st).tlen = st.tlen := rfl
@[simp] theorem errRecorded_tagv (c : BitVec 4) (st : Status) : (errRecorded c st).tagv = st.tagv := by
  unfold errRecorded; split <;> rfl
@[simp] theorem errRecorded_skd (c : BitVec 4) (st : Status) : (errRecorded c st).skd = st.skd := by
  unfold errRecorded; split <;> rfl
@[simp] theorem errRecorded_tlen (c : BitVec 4) (st : Status) : (errRecorded c st).tlen = st.tlen := by
  unfold errRecorded; split <;> rfl
@[simp] theorem errRecorded_err (c : BitVec 4) (st : Status) :
    (errRecorded c st).err = if st.err = 0 then c else st.err := by
  unfold errRecorded; split <;> rfl

/- Words of a bank (R12, R131). -/
@[simp] theorem wordAt_withWord (x : Quad) (w : Word) (i j : Fin 4) :
    wordAt (withWord x w i) j = if j = i then w else wordAt x j := by
  revert i j; simp [Fin.forall_fin_succ, wordAt, withWord]

theorem quad_ext_wordAt {x y : Quad} (h : ∀ i, wordAt x i = wordAt y i) : x = y := by
  cases x; cases y
  simpa [Fin.forall_fin_succ, wordAt] using h

/- Results. -/
@[simp] theorem andThen_next (s : State) (f : State → Result) : andThen (.next s) f = f s := rfl
@[simp] theorem andThen_refused (r : Refusal) (f : State → Result) : andThen (.refused r) f = .refused r := rfl

theorem respondOk_eq (d : Word) (s : State) : respondOk d s = .next { s with response := some ⟨0, d⟩ } := rfl

/-- Error entry, in one equation per state element (R155, R156). -/
theorem raiseError_eq (c : BitVec 4) (s : State) :
    raiseError c s = .next { s with
      status := if c = invalidArgument then tagWithdrawn (errRecorded c s.status) else errRecorded c s.status
      tag := if c = invalidArgument then Block.zero else s.tag
      response := some ⟨c, 0⟩ } := by
  unfold raiseError respond
  split <;> simp [withdrawTag]

end Sys2Proof.Machine
end

