-- ==== Sys2Proof/Laws/Mac.lean ====
section
/-! SUPPORT. The phases of a MAC, one lemma for what each does, and the loop of R110 packaged once. -/

namespace Sys2Proof.Machine

theorem foff_eq (n : Nat) : foff n = 16 * nnf n := rfl

theorem nnf_bounds (n : Nat) : 16 * nnf n ≤ n ∧ n - 16 * nnf n ≤ 16 ∧ (0 < n → 16 * nnf n < n) := by
  unfold nnf Config.blockBytes
  split <;> omega

/-- More than a block stands after j blocks exactly where block j is not the last (R103). -/
theorem nonFinal_iff (n j : Nat) : n - 16 * j > 16 ↔ j < nnf n := by
  unfold nnf Config.blockBytes
  split <;> omega

theorem messageIs_length {s : State} {m : List Byte} (h : messageIs s m) : m.length = s.mlen.toNat :=
  ((memRead_eq_some_iff _ _ _ _).mp h).1

theorem messageReadable_iff (s : State) : messageReadable s ↔ ∃ m, messageIs s m := by
  unfold messageReadable messageIs
  rw [← Option.isSome_iff_exists, memRead_isSome_iff]
  simp

/-- The bytes of the message from an offset on (R52). -/
theorem memRead_message {s : State} {m : List Byte} (h : messageIs s m) {p q : Nat} (hq : p + q ≤ s.mlen.toNat) :
    memRead s.msg p q = some ((m.drop p).take q) := by
  have := memRead_piece (a := 0) h hq
  simpa using this

/-- ABSORB with a non-final block at POS (R112). -/
theorem absorbPhase_block {s : State} {bs : List Byte} (h : remaining s > 16)
    (hr : memRead s.msg s.pos.toNat 16 = some bs) :
    absorbPhase s = .next { s with
      blk := blockOf bs, v := absorbInto s.nrounds s.v (blockOf bs), pos := s.pos + 16, ph := .absorb } := by
  have h' : remaining s > Config.blockBytes := h
  have hr' : memRead s.msg s.pos.toNat Config.blockBytes = some bs := hr
  simp only [absorbPhase, h', if_true, hr']

/-- ABSORB with a non-final block at POS that MSG does not hold (R51). -/
theorem absorbPhase_missing {s : State} (h : remaining s > 16) (hr : memRead s.msg s.pos.toNat 16 = none) :
    absorbPhase s = .refused (.messageTooShort (firstMissing s.msg s.pos.toNat 16)) := by
  have h' : remaining s > Config.blockBytes := h
  have hr' : memRead s.msg s.pos.toNat Config.blockBytes = none := hr
  simp only [absorbPhase, h', if_true, hr']
  rfl

/-- ABSORB with no non-final block left (R112). -/
theorem absorbPhase_done {s : State} (h : ¬ remaining s > 16) : absorbPhase s = .next { s with ph := .final } := by
  have h' : ¬ remaining s > Config.blockBytes := h
  simp only [absorbPhase, h', if_false]

/-- The block FINAL builds from the bytes it read, and the subkey it selects (R113). -/
def finalBlock (s : State) (bs : List Byte) : Block := blockOf (if remaining s = 16 then bs else padded bs)
def finalSubkey (s : State) : Quad := if remaining s = 16 then s.k1 else s.k2

theorem finalPhase_some {s : State} {bs : List Byte} (hr : memRead s.msg s.pos.toNat (remaining s) = some bs) :
    finalPhase s = .next { s with
      blk := finalBlock s bs, v := finishInto s.nrounds s.v (finalBlock s bs) (finalSubkey s), ph := .emit } := by
  simp only [finalPhase, hr]
  rfl

theorem finalPhase_none {s : State} (hr : memRead s.msg s.pos.toNat (remaining s) = none) :
    finalPhase s = .refused (.messageTooShort (firstMissing s.msg s.pos.toNat (remaining s))) := by
  simp only [finalPhase, hr]

theorem runPhases_idle (fuel : Nat) {s : State} (h : s.ph = .idle) : runPhases fuel s = .next s := by
  cases fuel with
  | zero => rfl
  | succ n => simp only [runPhases, h]

theorem runPhases_absorb (fuel : Nat) {s : State} (h : s.ph = .absorb) :
    runPhases (fuel + 1) s = andThen (absorbPhase s) (runPhases fuel) := by
  simp only [runPhases, h, phaseStep]

theorem runPhases_final (fuel : Nat) {s : State} (h : s.ph = .final) :
    runPhases (fuel + 1) s = andThen (finalPhase s) (runPhases fuel) := by
  simp only [runPhases, h, phaseStep]

theorem runPhases_emit (fuel : Nat) {s : State} (h : s.ph = .emit) : runPhases (fuel + 1) s = .next (emitPhase s) := by
  simp only [runPhases, h, phaseStep, andThen_next]
  exact runPhases_idle fuel rfl

/-- From FINAL on, a MAC whose last block MSG holds ends with EMIT of the finalised state (R113, R114). -/
theorem runPhases_from_final (fuel : Nat) {s : State} {bs : List Byte} (h : s.ph = .final)
    (hr : memRead s.msg s.pos.toNat (remaining s) = some bs) :
    runPhases (fuel + 2) s = .next (emitPhase { s with
      blk := finalBlock s bs, v := finishInto s.nrounds s.v (finalBlock s bs) (finalSubkey s), ph := .emit }) := by
  rw [runPhases_final _ h, finalPhase_some hr, andThen_next, runPhases_emit _ rfl]

theorem pos_add_16 {x : Word} {j n : Nat} (hx : x.toNat = 16 * j) (hj : j < nnf n) (hn : n < 2 ^ 32) :
    (x + 16).toNat = 16 * (j + 1) := by
  have hb := nnf_bounds n
  simp [hx]
  omega

/-- The loop of R110 packaged once: from a state with j blocks absorbed, a MAC over a readable message absorbs the
blocks that are left and enters FINAL with POS = FOFF(MLEN). -/
theorem runPhases_loop : ∀ (d j fuel : Nat) (s : State) (m : List Byte),
    s.ph = .absorb → messageIs s m → s.pos.toNat = 16 * j → j + d = nnf s.mlen.toNat →
    ∃ blk pos, pos.toNat = foff s.mlen.toNat ∧
      runPhases (fuel + d + 1) s = runPhases fuel { s with
        v := (List.range' j d).foldl (fun v i => absorbInto s.nrounds v (messageBlock m i)) s.v
        blk := blk, pos := pos, ph := .final } := by
  intro d
  induction d with
  | zero =>
    intro j fuel s m hph hm hpos hj
    have hdone : ¬ remaining s > 16 := by
      unfold remaining
      rw [hpos, nonFinal_iff]; omega
    refine ⟨s.blk, s.pos, by rw [foff_eq, hpos]; omega, ?_⟩
    rw [runPhases_absorb _ hph, absorbPhase_done hdone]
    rfl
  | succ d ih =>
    intro j fuel s m hph hm hpos hj
    have hlt : j < nnf s.mlen.toNat := by omega
    have hgo : remaining s > 16 := by
      unfold remaining
      rw [hpos]; exact (nonFinal_iff _ _).mpr hlt
    have hrd : memRead s.msg s.pos.toNat 16 = some ((m.drop (16 * j)).take 16) := by
      rw [hpos]
      apply memRead_message hm
      have := hgo
      unfold remaining at this
      omega
    obtain ⟨blk, pos, hp, hrun⟩ := ih (j + 1) fuel
      { s with
        blk := blockOf ((m.drop (16 * j)).take 16)
        v := absorbInto s.nrounds s.v (blockOf ((m.drop (16 * j)).take 16))
        pos := s.pos + 16, ph := .absorb } m rfl hm
      (pos_add_16 hpos hlt s.mlen.isLt) (by show j + 1 + d = nnf s.mlen.toNat; omega)
    refine ⟨blk, pos, hp, ?_⟩
    rw [show fuel + (d + 1) + 1 = (fuel + d + 1) + 1 by omega, runPhases_absorb _ hph, absorbPhase_block hgo hrd,
      andThen_next, hrun]
    rfl

/-- R116's loop over the blocks, as a fold. -/
theorem absorbBlocks_eq_foldl (rounds : Nat) (m : List Byte) (k : Quad) (n : Nat) :
    absorbBlocks rounds m k n = (List.range' 0 n).foldl (fun v i => absorbInto rounds v (messageBlock m i)) k := by
  induction n with
  | zero => rfl
  | succ n ih => rw [absorbBlocks, ih, List.range'_concat]; simp

/-- The same loop where MSG lacks a byte: the MAC is refused at the first offset without one (R51, U1). -/
theorem runPhases_refused : ∀ (d j fuel off : Nat) (s : State),
    s.ph = .absorb → s.pos.toNat = 16 * j → j + d = nnf s.mlen.toNat →
    16 * j ≤ off → off < s.mlen.toNat → readByte s.msg off = none →
    (∀ a, 16 * j ≤ a → a < off → (readByte s.msg a).isSome = true) →
    runPhases (fuel + d + 2) s = .refused (.messageTooShort off) := by
  intro d
  induction d with
  | zero =>
    intro j fuel off s hph hpos hj hlo hoff hnone hall
    have hdone : ¬ remaining s > 16 := by
      unfold remaining
      rw [hpos, nonFinal_iff]; omega
    rw [show fuel + 0 + 2 = (fuel + 1) + 1 by omega, runPhases_absorb _ hph, absorbPhase_done hdone, andThen_next,
      runPhases_final _ rfl]
    have hspec := firstMissing_spec (m := s.msg) (n := remaining s) (a := s.pos.toNat) (off := off)
      ⟨by omega, by unfold remaining; omega⟩ hnone (fun x hx hx' => hall x (by omega) hx')
    rw [finalPhase_none (s := { s with ph := .final }) hspec.1]
    show Host.Outcome.refused (Refusal.messageTooShort (firstMissing s.msg s.pos.toNat (remaining s))) = _
    rw [hspec.2]
  | succ d ih =>
    intro j fuel off s hph hpos hj hlo hoff hnone hall
    have hlt : j < nnf s.mlen.toNat := by omega
    have hgo : remaining s > 16 := by
      unfold remaining
      rw [hpos]; exact (nonFinal_iff _ _).mpr hlt
    rw [show fuel + (d + 1) + 2 = (fuel + d + 2) + 1 by omega, runPhases_absorb _ hph]
    by_cases hin : off < 16 * j + 16
    · have hspec := firstMissing_spec (m := s.msg) (n := 16) (a := s.pos.toNat) (off := off)
        ⟨by omega, by omega⟩ hnone (fun x hx hx' => hall x (by omega) hx')
      rw [absorbPhase_missing hgo hspec.1, andThen_refused, hspec.2]
    · have hsome : (memRead s.msg s.pos.toNat 16).isSome = true := by
        rw [memRead_isSome_iff]
        intro i hi
        exact hall _ (by omega) (by omega)
      obtain ⟨bs, hbs⟩ := Option.isSome_iff_exists.mp hsome
      rw [absorbPhase_block hgo hbs, andThen_next]
      exact ih (j + 1) fuel off _ rfl (pos_add_16 hpos hlt s.mlen.isLt)
        (by show j + 1 + d = nnf s.mlen.toNat; omega) (by omega) hoff hnone (fun a ha ha' => hall a (by omega) ha')

/-- What FINAL builds at POS = FOFF is the last block, and what it selects is SELECT (R104, R105, R113). -/
theorem final_is_last {s : State} {m : List Byte} (hm : messageIs s m) (hpos : s.pos.toNat = foff s.mlen.toNat) :
    ∃ bs, memRead s.msg s.pos.toNat (remaining s) = some bs ∧ finalBlock s bs = blockOf (lastBlock m) ∧
      finalSubkey s = selectSubkey m.length s.k1 s.k2 := by
  have hlen := messageIs_length hm
  have hb := nnf_bounds s.mlen.toNat
  have hrem : remaining s = rlast m.length := by unfold remaining rlast; rw [hpos, hlen]
  have htake : (m.drop (foff m.length)).take (rlast m.length) = m.drop (foff m.length) := by
    apply List.take_of_length_le
    simp [rlast]
  refine ⟨m.drop (foff m.length), ?_, ?_, ?_⟩
  · rw [hrem, hpos, ← hlen]
    conv => rhs; rw [← htake]
    apply memRead_message hm
    unfold rlast
    rw [foff_eq, hlen]; omega
  · unfold finalBlock lastBlock
    rw [hrem]; rfl
  · unfold finalSubkey selectSubkey
    rw [hrem]; rfl

/-- The state a MAC that computes over the message m leaves, `s` the state FINAL starts from or any state that agrees
with it on K, K1, K2, STATUS and what lies outside the engine (R114, R116). -/
def afterMac (s : State) (t : BitVec 5) (m : List Byte) : State :=
  { s with
    v := Quad.zero
    blk := Block.zero
    pos := 0
    ph := .idle
    tlat := t
    tag := keepFirst t.toNat (bytes (macState s.nrounds m s.k s.k1 s.k2))
    status := tagReady t s.status
    response := some ⟨0, 0⟩ }

/-- FINAL and EMIT end with the tag of R116, where V holds the absorbed blocks and POS = FOFF (R113, R114). -/
theorem finish_mac (fuel : Nat) {s : State} {m : List Byte} (hph : s.ph = .final) (hm : messageIs s m)
    (hpos : s.pos.toNat = foff s.mlen.toNat) (hv : s.v = absorbBlocks s.nrounds m s.k (nnf m.length)) :
    andThen (runPhases (fuel + 2) s) (respondOk 0) = .next (afterMac s s.tlat m) := by
  obtain ⟨bs, h1, h2, h3⟩ := final_is_last hm hpos
  rw [runPhases_from_final _ hph h1, h2, h3, andThen_next, respondOk_eq, emitPhase, memWriteTag_whole, hv]
  rfl

/-- A MAC with a legal tag length over a readable message completes with the tag of R116 (R110). -/
theorem exec_mac_computes {s : State} {tl : Nat} {m : List Byte} (h : tl ≤ 16) (hm : messageIs s m) :
    exec (.mac tl) s = .next (afterMac s (BitVec.ofNat 5 tl) m) := by
  show execMac tl s = _
  rw [execMac, if_neg (show ¬ tl > Config.tagMax by unfold Config.tagMax; omega), completeMac]
  have hb := nnf_bounds s.mlen.toNat
  obtain ⟨blk, pos, hp, hrun⟩ := runPhases_loop (nnf s.mlen.toNat) 0
    (s.mlen.toNat / 16 - nnf s.mlen.toNat + 2) (initPhase tl s) m rfl hm rfl (Nat.zero_add _)
  have hf : phaseBound (initPhase tl s) = s.mlen.toNat / 16 - nnf s.mlen.toNat + 2 + nnf s.mlen.toNat + 1 := by
    simp only [phaseBound, remaining, Config.blockBytes, initPhase_mlen, initPhase_pos]
    simp
    omega
  rw [hf, hrun]
  refine finish_mac (m := m) _ ?_ ?_ ?_ ?_
  · rfl
  · exact hm
  · exact hp
  · rw [messageIs_length hm, absorbBlocks_eq_foldl]; rfl

/-- A MAC with a legal tag length whose message lacks a byte is refused at the first offset without one (R51, U1). -/
theorem exec_mac_refused {s : State} {tl off : Nat} (h : tl ≤ 16) (ho : off < s.mlen.toNat)
    (hn : readByte s.msg off = none) (ha : ∀ a, a < off → (readByte s.msg a).isSome = true) :
    exec (.mac tl) s = .refused (.messageTooShort off) := by
  show execMac tl s = _
  rw [execMac, if_neg (show ¬ tl > Config.tagMax by unfold Config.tagMax; omega), completeMac]
  have hb := nnf_bounds s.mlen.toNat
  have hf : phaseBound (initPhase tl s) = s.mlen.toNat / 16 - nnf s.mlen.toNat + 1 + nnf s.mlen.toNat + 2 := by
    simp only [phaseBound, remaining, Config.blockBytes, initPhase_mlen, initPhase_pos]
    simp
    omega
  rw [hf, runPhases_refused (nnf s.mlen.toNat) 0 _ off (initPhase tl s) rfl rfl (by simp) (by omega) ho hn
    (fun a _ h => ha a h)]
  rfl

/-- A MAC with an illegal tag length takes the InvalidArgument entry (R110, R156). -/
theorem exec_mac_rejected {s : State} {tl : Nat} (h : 16 < tl) :
    exec (.mac tl) s = .next { s with
      status := tagWithdrawn (errRecorded 1 s.status), tag := Block.zero, response := some ⟨1, 0⟩ } := by
  show execMac tl s = _
  rw [execMac, if_pos (show tl > Config.tagMax by unfold Config.tagMax; omega), raiseError_eq]
  rfl

/-- A message that is not readable has a first offset without a byte. -/
theorem first_gap {s : State} (h : ¬ messageReadable s) : ∃ off, off < s.mlen.toNat ∧ readByte s.msg off = none ∧
    ∀ a, a < off → (readByte s.msg a).isSome = true := by
  classical
  have h' : ∃ a, a < s.mlen.toNat ∧ readByte s.msg a = none := by
    unfold messageReadable at h
    push Not at h
    obtain ⟨a, h1, h2⟩ := h
    exact ⟨a, h1, by simpa using h2⟩
  have hlt := (Nat.find_spec h').1
  refine ⟨Nat.find h', hlt, (Nat.find_spec h').2, fun a ha => ?_⟩
  cases hr : readByte s.msg a with
  | some _ => rfl
  | none => exact absurd ⟨by omega, hr⟩ (Nat.find_min h' ha)

/-- Everything a MAC can do: it rejects its tag length, computes, or is refused (R110, R51). -/
theorem exec_mac_cases (s : State) (tl : Nat) :
    (16 < tl ∧ exec (.mac tl) s = .next { s with
      status := tagWithdrawn (errRecorded 1 s.status), tag := Block.zero, response := some ⟨1, 0⟩ }) ∨
    (tl ≤ 16 ∧ ∃ m, messageIs s m ∧ exec (.mac tl) s = .next (afterMac s (BitVec.ofNat 5 tl) m)) ∨
    (tl ≤ 16 ∧ ¬ messageReadable s ∧ ∃ off, off < s.mlen.toNat ∧ readByte s.msg off = none ∧
      (∀ a, a < off → (readByte s.msg a).isSome = true) ∧ exec (.mac tl) s = .refused (.messageTooShort off)) := by
  rcases Nat.lt_or_ge 16 tl with h | h
  · exact .inl ⟨h, exec_mac_rejected h⟩
  · by_cases hm : messageReadable s
    · obtain ⟨m, hm⟩ := (messageReadable_iff s).mp hm
      exact .inr (.inl ⟨h, m, hm, exec_mac_computes h hm⟩)
    · obtain ⟨off, h1, h2, h3⟩ := first_gap hm
      exact .inr (.inr ⟨h, hm, off, h1, h2, h3, exec_mac_refused h h1 h2 h3⟩)

theorem tagLength_toNat {tl : Nat} (h : tl ≤ 16) : (BitVec.ofNat 5 tl).toNat = tl := by
  rw [BitVec.toNat_ofNat]; omega

/-- The two views of one fact: the message of a state with bytes m (R51). -/
theorem messageIs_congr {s s' : State} (hl : s'.mlen = s.mlen)
    (h : ∀ a, a < s.mlen.toNat → readByte s'.msg a = readByte s.msg a) (m : List Byte) :
    messageIs s' m ↔ messageIs s m := by
  unfold messageIs
  rw [hl, memRead_congr s.mlen.toNat 0 (fun j hj => h (0 + j) (by omega))]

end Sys2Proof.Machine
end

