-- ==== Sys2Proof/Laws/Operands.lean ====
section
/-! SUPPORT. The little-endian views bit by bit: LE32, a byte of a word, and the exclusive or of four-word values
(R11, R12, R57). -/

namespace Sys2Proof.Machine

/-- A bit of LE32 is a bit of the byte it falls in (R12). -/
theorem le32_getLsbD (b0 b1 b2 b3 : Byte) (i : Nat) (h : i < 32) :
    (le32 b0 b1 b2 b3).getLsbD i =
      if i < 8 then b0.getLsbD i else if i < 16 then b1.getLsbD (i - 8)
      else if i < 24 then b2.getLsbD (i - 16) else b3.getLsbD (i - 24) := by
  simp only [le32, BitVec.getLsbD_or, BitVec.getLsbD_shiftLeft, BitVec.zeroExtend, BitVec.getLsbD_setWidth, h,
    decide_true, Bool.true_and, show i - 8 < 32 by omega, show i - 16 < 32 by omega, show i - 24 < 32 by omega]
  rcases Nat.lt_or_ge i 8 with h0 | h0
  · simp [h0, show i < 16 by omega, show i < 24 by omega]
  · rcases Nat.lt_or_ge i 16 with h1 | h1
    · simp [h1, show ¬ i < 8 by omega, show i < 24 by omega, BitVec.getLsbD_of_ge b0 i (by omega)]
    · rcases Nat.lt_or_ge i 24 with h2 | h2
      · simp [h2, show ¬ i < 8 by omega, show ¬ i < 16 by omega, BitVec.getLsbD_of_ge b0 i (by omega),
          BitVec.getLsbD_of_ge b1 (i - 8) (by omega)]
      · simp [show ¬ i < 8 by omega, show ¬ i < 16 by omega, show ¬ i < 24 by omega,
          BitVec.getLsbD_of_ge b0 i (by omega), BitVec.getLsbD_of_ge b1 (i - 8) (by omega),
          BitVec.getLsbD_of_ge b2 (i - 16) (by omega)]

/-- A bit of a byte of a word (R12). -/
theorem byteOf_getLsbD (w : Word) (j i : Nat) (h : i < 8) : (byteOf w j).getLsbD i = w.getLsbD (8 * j + i) := by
  simp [byteOf, h]

/-- A word is LE32 of its four bytes (R12). -/
theorem le32_byteOf (w : Word) : le32 (byteOf w 0) (byteOf w 1) (byteOf w 2) (byteOf w 3) = w := by
  apply BitVec.eq_of_getLsbD_eq
  intro i hi
  rw [le32_getLsbD _ _ _ _ i hi]
  split
  · rw [byteOf_getLsbD _ _ _ (by omega), Nat.mul_zero, Nat.zero_add]
  · split
    · rw [byteOf_getLsbD _ _ _ (by omega)]; congr 1; omega
    · split
      · rw [byteOf_getLsbD _ _ _ (by omega)]; congr 1; omega
      · rw [byteOf_getLsbD _ _ _ (by omega)]; congr 1; omega

/-- The bytes of LE32 are its arguments (R12). -/
theorem byteOf_le32 (b0 b1 b2 b3 : Byte) :
    byteOf (le32 b0 b1 b2 b3) 0 = b0 ∧ byteOf (le32 b0 b1 b2 b3) 1 = b1 ∧
    byteOf (le32 b0 b1 b2 b3) 2 = b2 ∧ byteOf (le32 b0 b1 b2 b3) 3 = b3 := by
  refine ⟨?_, ?_, ?_, ?_⟩ <;>
  · apply BitVec.eq_of_getLsbD_eq
    intro i hi
    rw [byteOf_getLsbD _ _ _ hi, le32_getLsbD _ _ _ _ _ (by omega)]
    simp only [show ¬ 8 * 1 + i < 8 by omega, show ¬ 8 * 2 + i < 8 by omega, show ¬ 8 * 2 + i < 16 by omega,
      show ¬ 8 * 3 + i < 8 by omega, show ¬ 8 * 3 + i < 16 by omega, show ¬ 8 * 3 + i < 24 by omega,
      show 8 * 0 + i < 8 by omega, show 8 * 1 + i < 16 by omega, show 8 * 2 + i < 24 by omega, if_true, if_false]
    congr 1
    omega

/-- LE32 as the sum R12 writes. -/
theorem le32_toNat (b0 b1 b2 b3 : Byte) : (le32 b0 b1 b2 b3).toNat =
    b0.toNat + 2 ^ 8 * b1.toNat + 2 ^ 16 * b2.toNat + 2 ^ 24 * b3.toNat := by
  have hcat : le32 b0 b1 b2 b3 = b3 ++ (b2 ++ (b1 ++ b0 : BitVec 16) : BitVec 24) := by
    apply BitVec.eq_of_getLsbD_eq
    intro i hi
    rw [le32_getLsbD _ _ _ _ i hi]
    simp only [BitVec.getLsbD_append]
    rcases Nat.lt_or_ge i 8 with h8 | h8
    · simp [h8, show i < 16 by omega, show i < 24 by omega]
    · rcases Nat.lt_or_ge i 16 with h16 | h16
      · simp [h16, show ¬ i < 8 by omega, show i < 24 by omega]
      · simp [show ¬ i < 8 by omega, show ¬ i < 16 by omega]
  have h16 : (b1 ++ b0 : BitVec 16).toNat = 2 ^ 8 * b1.toNat + b0.toNat := by
    rw [BitVec.toNat_append, ← Nat.shiftLeft_add_eq_or_of_lt b0.isLt, Nat.shiftLeft_eq]; omega
  have h24 : (b2 ++ (b1 ++ b0 : BitVec 16) : BitVec 24).toNat =
      2 ^ 16 * b2.toNat + (2 ^ 8 * b1.toNat + b0.toNat) := by
    rw [BitVec.toNat_append, ← Nat.shiftLeft_add_eq_or_of_lt (BitVec.isLt _), Nat.shiftLeft_eq, h16]; omega
  rw [hcat, BitVec.toNat_append, ← Nat.shiftLeft_add_eq_or_of_lt (BitVec.isLt _), Nat.shiftLeft_eq, h24]
  omega

/-- A bit of the 128-bit value is a bit of the word it falls in (R10). -/
theorem value128_getLsbD (x : Quad) (i : Nat) : (value128 x).getLsbD i =
    if i < 32 then x.w0.getLsbD i else if i < 64 then x.w1.getLsbD (i - 32)
    else if i < 96 then x.w2.getLsbD (i - 64) else x.w3.getLsbD (i - 96) := by
  simp only [value128, BitVec.getLsbD_or, BitVec.getLsbD_shiftLeft, BitVec.zeroExtend, BitVec.getLsbD_setWidth]
  rcases Nat.lt_or_ge i 32 with h | h
  · simp [h, show i < 64 by omega, show i < 96 by omega, show i < 128 by omega]
  · rcases Nat.lt_or_ge i 64 with h1 | h1
    · simp [h1, show ¬ i < 32 by omega, show i < 96 by omega, show i < 128 by omega, show i - 32 < 128 by omega,
        BitVec.getLsbD_of_ge x.w0 i (by omega)]
    · rcases Nat.lt_or_ge i 96 with h2 | h2
      · simp [h2, show ¬ i < 32 by omega, show ¬ i < 64 by omega, show i < 128 by omega, show i - 64 < 128 by omega,
          BitVec.getLsbD_of_ge x.w0 i (by omega), BitVec.getLsbD_of_ge x.w1 (i - 32) (by omega)]
      · rcases Nat.lt_or_ge i 128 with h3 | h3
        · simp [show ¬ i < 32 by omega, show ¬ i < 64 by omega, show ¬ i < 96 by omega, h3,
            show i - 96 < 128 by omega, BitVec.getLsbD_of_ge x.w0 i (by omega),
            BitVec.getLsbD_of_ge x.w1 (i - 32) (by omega), BitVec.getLsbD_of_ge x.w2 (i - 64) (by omega)]
        · simp [show ¬ i < 32 by omega, show ¬ i < 64 by omega, show ¬ i < 96 by omega, show ¬ i < 128 by omega,
            BitVec.getLsbD_of_ge x.w3 (i - 96) (by omega)]

/-- Four words with one 128-bit value are the same four words (R10). -/
theorem value128_inj {x y : Quad} (h : value128 x = value128 y) : x = y := by
  have hb : ∀ i, (value128 x).getLsbD i = (value128 y).getLsbD i := fun i => by rw [h]
  simp only [value128_getLsbD] at hb
  cases x
  cases y
  simp only [Quad.mk.injEq]
  refine ⟨?_, ?_, ?_, ?_⟩ <;> apply BitVec.eq_of_getLsbD_eq <;> intro i hi
  · simpa [hi] using hb i
  · simpa [show ¬ i + 32 < 32 by omega, show i + 32 < 64 by omega] using hb (i + 32)
  · simpa [show ¬ i + 64 < 32 by omega, show ¬ i + 64 < 64 by omega, show i + 64 < 96 by omega] using hb (i + 64)
  · simpa [show ¬ i + 96 < 32 by omega, show ¬ i + 96 < 64 by omega, show ¬ i + 96 < 96 by omega] using hb (i + 96)

@[simp] theorem xorQuad_zero (a : Quad) : xorQuad a Quad.zero = a := by
  cases a; simp [xorQuad, Quad.zero]

@[simp] theorem words_zero : words Block.zero = Quad.zero := by decide

@[simp] theorem bytes_zero : bytes Quad.zero = Block.zero := by decide

end Sys2Proof.Machine
end

