-- ==== Sys2Proof/Laws/PerInstr.lean ====
section
/-! SUPPORT. The family EncodingRow: the word a command encodes to matches the row of the opcode map that bears the
command's mnemonic, one lemma per constructor of Instr (R77, R82). -/

namespace Sys2Proof.Laws

/-- The command's own word matches the row of its own mnemonic (R77). -/
def EncodingRow.Statement (i : Instr) : Prop :=
  ∃ r ∈ opcodeMap, r.mnemonic = i.mnemonic ∧ r.covers (encode i).1 = true

theorem EncodingRow.nop : EncodingRow.Statement .nop :=
  ⟨⟨"NOP", 0x00000000, 0xFFFFFFFF⟩, by decide, rfl, (covers_Z _ 0x00 _ (by decide)).mpr (by simp [encode])⟩

theorem EncodingRow.wrk (i : Fin 4) (w : Word) : EncodingRow.Statement (.wrk i w) :=
  ⟨⟨"WRK", 0x01000000, 0xFFFFFFFC⟩, by decide, rfl, (covers_X _ 0x01 _ (by decide)).mpr (by simp [encode, highBits_of_index])⟩

theorem EncodingRow.wrk1 (i : Fin 4) (w : Word) : EncodingRow.Statement (.wrk1 i w) :=
  ⟨⟨"WRK1", 0x02000000, 0xFFFFFFFC⟩, by decide, rfl, (covers_X _ 0x02 _ (by decide)).mpr (by simp [encode, highBits_of_index])⟩

theorem EncodingRow.wrk2 (i : Fin 4) (w : Word) : EncodingRow.Statement (.wrk2 i w) :=
  ⟨⟨"WRK2", 0x03000000, 0xFFFFFFFC⟩, by decide, rfl, (covers_X _ 0x03 _ (by decide)).mpr (by simp [encode, highBits_of_index])⟩

theorem EncodingRow.wrlen (n : Word) : EncodingRow.Statement (.wrlen n) :=
  ⟨⟨"WRLEN", 0x04000000, 0xFFFFFFFF⟩, by decide, rfl, (covers_Z _ 0x04 _ (by decide)).mpr (by simp [encode])⟩

theorem EncodingRow.rdk1 (i : Fin 4) : EncodingRow.Statement (.rdk1 i) :=
  ⟨⟨"RDK1", 0x08000000, 0xFFFFFFFC⟩, by decide, rfl, (covers_X _ 0x08 _ (by decide)).mpr (by simp [encode, highBits_of_index])⟩

theorem EncodingRow.rdk2 (i : Fin 4) : EncodingRow.Statement (.rdk2 i) :=
  ⟨⟨"RDK2", 0x09000000, 0xFFFFFFFC⟩, by decide, rfl, (covers_X _ 0x09 _ (by decide)).mpr (by simp [encode, highBits_of_index])⟩

theorem EncodingRow.rdtag (i : Fin 4) : EncodingRow.Statement (.rdtag i) :=
  ⟨⟨"RDTAG", 0x0A000000, 0xFFFFFFFC⟩, by decide, rfl, (covers_X _ 0x0A _ (by decide)).mpr (by simp [encode, highBits_of_index])⟩

theorem EncodingRow.rdstat : EncodingRow.Statement .rdstat :=
  ⟨⟨"RDSTAT", 0x0B000000, 0xFFFFFFFF⟩, by decide, rfl, (covers_Z _ 0x0B _ (by decide)).mpr (by simp [encode])⟩

theorem EncodingRow.rdcfg : EncodingRow.Statement .rdcfg :=
  ⟨⟨"RDCFG", 0x0C000000, 0xFFFFFFFF⟩, by decide, rfl, (covers_Z _ 0x0C _ (by decide)).mpr (by simp [encode])⟩

theorem EncodingRow.rdlen : EncodingRow.Statement .rdlen :=
  ⟨⟨"RDLEN", 0x0D000000, 0xFFFFFFFF⟩, by decide, rfl, (covers_Z _ 0x0D _ (by decide)).mpr (by simp [encode])⟩

theorem EncodingRow.derive : EncodingRow.Statement .derive :=
  ⟨⟨"DERIVE", 0x10000000, 0xFFFFFFFF⟩, by decide, rfl, (covers_Z _ 0x10 _ (by decide)).mpr (by simp [encode])⟩

theorem EncodingRow.mac (tl : Nat) : EncodingRow.Statement (.mac tl) :=
  ⟨⟨"MAC", 0x11000000, 0xFFFFFF00⟩, by decide, rfl, (covers_T _ 0x11 _ (by decide)).mpr (by simp [encode])⟩

theorem EncodingRow.clrerr : EncodingRow.Statement .clrerr :=
  ⟨⟨"CLRERR", 0x1F000000, 0xFFFFFFFF⟩, by decide, rfl, (covers_Z _ 0x1F _ (by decide)).mpr (by simp [encode])⟩

end Sys2Proof.Laws
end

