-- ==== Sys2Proof/Laws/Permutation.lean ====
section
/-! SUPPORT. The rotations and the round with their inverses (R120, R122, R125(c)). -/

namespace Sys2Proof.Machine

/-- ROTR undoes ROTL for the amounts the spec defines. -/
theorem rotr_rotl (a : Word) (n : Nat) (h1 : 1 ≤ n) (h2 : n ≤ 31) : rotr (rotl a n) n = a := by
  apply BitVec.eq_of_getLsbD_eq
  intro i hi
  unfold rotr rotl
  simp only [BitVec.getLsbD_or, BitVec.getLsbD_shiftLeft, BitVec.getLsbD_ushiftRight]
  rcases Nat.lt_or_ge (i + n) 32 with h | h
  · simp [hi, show n + i < 32 by omega, show i < 32 - n by omega, BitVec.getLsbD_of_ge a (32 - n + (n + i)) (by omega)]
  · simp [hi, show ¬ i < 32 - n by omega, show ¬ n + i < 32 by omega,
      BitVec.getLsbD_of_ge a (32 - n + (n + i)) (by omega), show i - (32 - n) < 32 by omega,
      show i - (32 - n) < n by omega, show 32 - n + (i - (32 - n)) = i by omega]

/-- ROTL undoes ROTR for the amounts the spec defines. -/
theorem rotl_rotr (a : Word) (n : Nat) (h1 : 1 ≤ n) (h2 : n ≤ 31) : rotl (rotr a n) n = a := by
  have := rotr_rotl a (32 - n) (by omega) (by omega)
  unfold rotr rotl at *
  rw [show 32 - (32 - n) = n by omega] at this
  rw [BitVec.or_comm (a >>> n), BitVec.or_comm]
  exact this

/-- The inverse round undoes the round. -/
theorem unround_arxRound (v : Quad) : unround (arxRound v) = v := by
  cases v
  simp only [arxRound, mix01, mix23, cross03, cross21, unround, rotr_rotl _ _ (by decide : 1 ≤ 16) (by decide),
    rotr_rotl _ _ (by decide : 1 ≤ 7) (by decide), rotr_rotl _ _ (by decide : 1 ≤ 13) (by decide),
    rotr_rotl _ _ (by decide : 1 ≤ 8) (by decide), rotr_rotl _ _ (by decide : 1 ≤ 5) (by decide),
    BitVec.xor_assoc, BitVec.xor_self, BitVec.xor_zero, BitVec.add_sub_cancel]

/-- The round undoes the inverse round. -/
theorem arxRound_unround (v : Quad) : arxRound (unround v) = v := by
  cases v
  simp only [arxRound, mix01, mix23, cross03, cross21, unround, rotl_rotr _ _ (by decide : 1 ≤ 16) (by decide),
    rotl_rotr _ _ (by decide : 1 ≤ 7) (by decide), rotl_rotr _ _ (by decide : 1 ≤ 13) (by decide),
    rotl_rotr _ _ (by decide : 1 ≤ 8) (by decide), rotl_rotr _ _ (by decide : 1 ≤ 5) (by decide),
    BitVec.xor_assoc, BitVec.xor_self, BitVec.xor_zero, BitVec.sub_add_cancel]

end Sys2Proof.Machine
end

