-- ==== Sys2Proof/Laws/Step.lean ====
section
/-! SUPPORT. What a step does on each of the host's moves (R68, R71). -/

namespace Sys2Proof.Machine

theorem step_none {s : State} (hp : s.ph = .idle) (hh : s.host = []) : step s = .next { s with response := none } := by
  simp only [step, hp, hh, idleStep]

theorem step_message {s : State} {bs : List Byte} {rest : List HostMove} (hp : s.ph = .idle)
    (hh : s.host = .message bs :: rest) :
    step s = .next { s with host := rest, msg := placeMessage bs, response := none } := by
  simp only [step, hp, hh, hostMessage]

theorem step_reset {s : State} {rest : List HostMove} (hp : s.ph = .idle) (hh : s.host = .reset :: rest) :
    step s = .next { State.reset with nroundsPred := s.nroundsPred, msg := s.msg, host := rest } := by
  simp only [step, hp, hh, hostReset]

theorem step_command {s : State} {cw wdata : Word} {rest : List HostMove} (hp : s.ph = .idle)
    (hh : s.host = .command cw wdata :: rest) : step s = runCommand cw wdata { s with host := rest } := by
  simp only [step, hp, hh]

/-- A legal word is executed, an illegal one enters IllegalCommand (R79, R152). -/
theorem runCommand_ok {cw wdata : Word} {i : Instr} (s : State) (h : decode cw wdata = .ok i) :
    runCommand cw wdata s = exec i s := by
  simp only [runCommand, h]

theorem runCommand_illegal {cw wdata : Word} {why : Illegal} (s : State) (h : decode cw wdata = .illegal why) :
    runCommand cw wdata s =
      .next { s with status := errRecorded 2 s.status, response := some ⟨2, 0⟩ } := by
  simp only [runCommand, h, raiseError_eq]
  rfl

theorem step_busy {s : State} (hp : s.ph ≠ .idle) : step s = completeMac s := by
  cases h : s.ph with
  | idle => exact absurd h hp
  | absorb => simp only [step, h]
  | final => simp only [step, h]
  | emit => simp only [step, h]

end Sys2Proof.Machine
end

