-- ==== Sys2Proof/Tests/Slice0.lean ====
section
/-! SUPPORT. Small tests with their expected values taken from `95_test_vectors.md` and `30_encoding.md`, and one
witness for each statement of the obligations that has hypotheses. -/

namespace Sys2Proof.Tests

open Sys2Proof Sys2Proof.Machine

/- Helpers. -/

/-- The canonical key of `95_test_vectors.md`. -/
def canonical : Quad := ⟨0x833D3433, 0x009F389F, 0x2398E64F, 0x417ACF39⟩

/-- The counting message of length n. -/
def counting (n : Nat) : List Byte := (List.range n).map (BitVec.ofNat 8)

/-- A key, its subkeys, a message of the host and its declared length; NROUNDS is `r + 1`. -/
def loaded (r : Fin 255) (k : Quad) (m : List Byte) : State :=
  { State.reset with
    nroundsPred := r
    k := k
    k1 := double k
    k2 := double (double k)
    status := { tagv := false, skd := true, err := 0, tlen := 0 }
    msg := placeMessage m
    mlen := BitVec.ofNat 32 m.length }

/-- The result is a next state of which p holds. -/
def after (r : Result) (p : State → Bool) : Bool :=
  match r with
  | .next t => p t
  | .fault _ => false
  | .refused _ => false

/-- The command responded so. -/
def responds (t : State) (code : BitVec 4) (data : Word) : Bool := t.response == some ⟨code, data⟩

/-- A state as after the first command lines of `95_test_vectors.md` section 2.11: a tag, ERR = 1. -/
def erred : State :=
  { loaded 11 canonical [] with
    tag := (Block.zero.set 0 0x41).set 1 0x1F
    status := { tagv := true, skd := true, err := 1, tlen := 2 } }

/- WellFormed (R75, R82): the one check, at both ends. -/

theorem test_mac_tag_length_256_is_ill_formed : (Instr.mac 256).wellFormed = false := by decide
theorem test_mac_tag_length_255_is_well_formed : (Instr.mac 255).wellFormed = true := by decide

/- Decode: words written bit by bit from R72 to R77. -/

theorem test_decode_nop : decode 0b00000000_0000000000000000_00000000 0x2398E64F = .ok (.nop) := by decide
theorem test_decode_wrk : decode 0b00000001_0000000000000000_00000001 0x2398E64F = .ok (.wrk 1 0x2398E64F) := by decide
theorem test_decode_wrk1 : decode 0b00000010_0000000000000000_00000011 0x2398E64F = .ok (.wrk1 3 0x2398E64F) := by decide
theorem test_decode_wrk2 : decode 0b00000011_0000000000000000_00000010 0x2398E64F = .ok (.wrk2 2 0x2398E64F) := by decide
theorem test_decode_wrlen : decode 0b00000100_0000000000000000_00000000 0x2398E64F = .ok (.wrlen 0x2398E64F) := by decide
theorem test_decode_rdk1 : decode 0b00001000_0000000000000000_00000001 0x2398E64F = .ok (.rdk1 1) := by decide
theorem test_decode_rdk2 : decode 0b00001001_0000000000000000_00000011 0x2398E64F = .ok (.rdk2 3) := by decide
theorem test_decode_rdtag : decode 0b00001010_0000000000000000_00000010 0x2398E64F = .ok (.rdtag 2) := by decide
theorem test_decode_rdstat : decode 0b00001011_0000000000000000_00000000 0x2398E64F = .ok (.rdstat) := by decide
theorem test_decode_rdcfg : decode 0b00001100_0000000000000000_00000000 0x2398E64F = .ok (.rdcfg) := by decide
theorem test_decode_rdlen : decode 0b00001101_0000000000000000_00000000 0x2398E64F = .ok (.rdlen) := by decide
theorem test_decode_derive : decode 0b00010000_0000000000000000_00000000 0x2398E64F = .ok (.derive) := by decide
theorem test_decode_clrerr : decode 0b00011111_0000000000000000_00000000 0x2398E64F = .ok (.clrerr) := by decide
theorem test_decode_mac : decode 0b00010001_0000000000000000_10000001 0 = .ok (.mac 129) := by decide

/- Illegal words of `95_test_vectors.md` section 2.9. -/

theorem test_decode_zero_format_argument : decode 0x04000010 0 = .illegal .argNotZero := by decide
theorem test_decode_index_4 : decode 0x0A000004 0 = .illegal .argHighNotZero := by decide
theorem test_decode_mbz_first_bit : decode 0x11000110 0 = .illegal .mbzNotZero := by decide
theorem test_decode_mbz_last_bit : decode 0x11800010 0 = .illegal .mbzNotZero := by decide
theorem test_decode_reserved_low : decode 0x07000000 0 = .illegal .reservedOpcode := by decide
theorem test_decode_reserved_high : decode 0xFF000000 0 = .illegal .reservedOpcode := by decide

/- The host's view of the decoder: bits 31..0 are CW, bits 63..32 WDATA (log 7). -/

theorem test_table_word_with_wdata : decodeTableWord 64 0x2398E64F01000002 = some (.wrk 2 0x2398E64F) := by decide
theorem test_table_word_without_wdata : decodeTableWord 32 0x2398E64F01000002 = some (.wrk 2 0) := by decide
theorem test_fetched_word_runs : after (step (State.reset.withFetchWord 64 0x2398E64F01000002))
    (fun t => t.k == ⟨0, 0, 0x2398E64F, 0⟩ && responds t 0 0 && t.host == []) = true := by decide

/- One step of each command; values of `95_test_vectors.md` sections 2.1, 2.8, 2.10 and 2.11. -/

theorem test_nop : after (exec .nop erred) (fun t => t == { erred with response := some ⟨0, 0⟩ }) = true := by decide
theorem test_wrk_clears_skd : after (exec (.wrk 3 0x80000000) erred)
    (fun t => t.k == ⟨0x833D3433, 0x009F389F, 0x2398E64F, 0x80000000⟩ && t.status == ⟨true, false, 1, 2⟩) = true := by
  decide
theorem test_wrk1_leaves_k2 : after (exec (.wrk1 1 0xAAAAAAAA) (loaded 11 ⟨0, 0, 0, 0x80000000⟩ []))
    (fun t => t.k1 == ⟨0x87, 0xAAAAAAAA, 0, 0⟩ && t.k2 == ⟨0x10E, 0, 0, 0⟩ && t.status.skd == false) = true := by decide
theorem test_wrk2_same_value_clears_skd : after (exec (.wrk2 0 0x10E) (loaded 11 ⟨0, 0, 0, 0x80000000⟩ []))
    (fun t => t.k2 == ⟨0x10E, 0, 0, 0⟩ && t.status.skd == false) = true := by decide
theorem test_wrlen_largest : after (exec (.wrlen 0xFFFFFFFF) erred)
    (fun t => t.mlen == 0xFFFFFFFF && t.msg == [] && t.status == erred.status) = true := by decide
theorem test_rdk1 : after (exec (.rdk1 3) erred) (fun t => responds t 0 0x82F59E72) = true := by decide
theorem test_rdk2 : after (exec (.rdk2 0) erred) (fun t => responds t 0 0x0CF4D04B) = true := by decide
theorem test_rdtag_low_byte_first : after (exec (.rdtag 0) erred) (fun t => responds t 0 0x00001F41) = true := by decide
theorem test_rdstat : after (exec .rdstat erred) (fun t => responds t 0 0x00000213) = true := by decide
theorem test_rdcfg_12 : after (exec .rdcfg State.reset) (fun t => responds t 0 0x0000000C) = true := by decide
theorem test_rdcfg_8 : after (exec .rdcfg (loaded 7 canonical [])) (fun t => responds t 0 0x00000008) = true := by decide
theorem test_rdlen : after (exec .rdlen (loaded 11 canonical (counting 17))) (fun t => responds t 0 0x11) = true := by
  decide
theorem test_clrerr : after (exec .clrerr erred) (fun t => t.status == ⟨true, true, 0, 2⟩ && responds t 0 0) = true := by
  decide
theorem test_derive_reduces_twice : after (exec .derive { State.reset with k := ⟨1, 0, 0, 0xC0000000⟩ })
    (fun t => t.k1 == ⟨0x85, 0, 0, 0x80000000⟩ && t.k2 == ⟨0x18D, 0, 0, 0⟩ && t.status.skd) = true := by decide
theorem test_derive_canonical : after (exec .derive { State.reset with k := canonical })
    (fun t => t.k1 == ⟨0x067A6866, 0x013E713F, 0x4731CC9E, 0x82F59E72⟩ &&
      t.k2 == ⟨0x0CF4D04B, 0x027CE27E, 0x8E63993C, 0x05EB3CE4⟩) = true := by decide

set_option maxRecDepth 20000 in
/-- One absorbed block, a padded last block, a tag cut to six bytes (program P3). -/
theorem test_mac_17_bytes_tag_6 : after (exec (.mac 6) (loaded 11 canonical (counting 17)))
    (fun t => t.tag.toList == [0x5A, 0x6D, 0x5F, 0x8B, 0xF6, 0x14, 0, 0, 0, 0, 0, 0, 0, 0, 0, 0] &&
      statusWord t.status == 0x00000603 && t.v == Quad.zero && t.pos == 0 && responds t 0 0) = true := by decide

theorem test_mac_17_is_rejected : after (exec (.mac 17) erred)
    (fun t => statusWord t.status == 0x00000012 && t.tag == Block.zero && responds t 1 0) = true := by decide

/- The functions below the commands, and the cross-check of section 2.6. -/

/-- The round of R126. -/
theorem test_round : arxRound ⟨0x01234567, 0x89ABCDEF, 0xFEDCBA98, 0x76543210⟩ =
    ⟨0x345987AD, 0xEFB0C890, 0x9B4F34E7, 0x6BC2438D⟩ := by decide

set_option maxRecDepth 20000 in
theorem test_permute_12 : permute 12 ⟨1, 0, 0, 0⟩ = ⟨0x6F2EC97B, 0x0865A1F6, 0x9E4ECD95, 0x531D94FF⟩ := by decide

/-- The padded last block of section 2.7, r = 5. -/
theorem test_last_block : words (blockOf (lastBlock [0xA0, 0xA1, 0xA2, 0xA3, 0xA4])) =
    ⟨0xA3A2A1A0, 0x000001A4, 0, 0⟩ := by decide

set_option maxRecDepth 20000 in
/-- A tag of the published 8-round test set, as section 2.6 recalls it. -/
theorem test_recalled_8_round_tag : macState 8 [0x00, 0x01] canonical (double canonical) (double (double canonical)) =
    ⟨0x55DF8922, 0x2C7FF577, 0x73809EF4, 0x4E5084C0⟩ := by decide

set_option maxRecDepth 20000 in
/-- A message of two whole blocks takes K1 (section 2.5). -/
theorem test_32_bytes : macState 12 (counting 32) canonical (double canonical) (double (double canonical)) =
    ⟨0x77962784, 0x07C647FA, 0xDD752C0F, 0xD2F5A799⟩ := by decide

/- Illegal words and the host's other moves. -/

/-- MBZ wins over TL = 17, the first error stays (section 2.11). -/
theorem test_illegal_word_leaves_the_tag : after (step (erred.withFetchWord 32 0x11010011))
    (fun t => t.tag == erred.tag && t.status == erred.status && responds t 2 0) = true := by decide

theorem test_reset_move_keeps_rounds : after (step { loaded 7 canonical [0xAB] with host := [.reset] })
    (fun t => t == { State.reset with nroundsPred := 7, msg := [(0, 0xAB)] }) = true := by decide

theorem test_message_move : after (step { erred with host := [.message [0x61, 0x01]] })
    (fun t => t.msg == [(0, 0x61), (1, 0x01)] && t.mlen == 0 && t.status == erred.status) = true := by decide

/-- A MAC over a message one byte short has no meaning (U1). -/
theorem test_short_message : (match exec (.mac 16) { loaded 11 canonical (counting 15) with mlen := 16 } with
    | .refused r => decide (r = .messageTooShort 15) | _ => false) = true := by decide

/- Script text (R82 to R84). -/

theorem test_script_line : assemble ['W', 'R', 'K', ' ', '2', ',', ' ', '0', 'x', '2', '3', '9', '8', 'E', '6', '4', 'F',
    ' ', '#', '!'] = some [.command 0x01000002 0x2398E64F] := by decide

theorem test_script_message : assemble ['.', 'm', 's', 'g', ' ', '0', 'F', ' ', '1', '0', '\n', '\n', 'M', 'A', 'C', 'N',
    ' ', '1', '6', ',', '2'] =
    some [.message [0x0F, 0x10], .command 0x04000000 2, .command 0x11000010 0] := by decide

theorem test_script_index_4_is_no_line : assemble ['R', 'D', 'K', '1', ' ', '4'] = none := by decide
theorem test_script_illegal_word : assemble ['.', 'c', 'w', ' ', '0', 'x', '0', '5', '0', '0', '0', '0', '0', '0'] =
    some [.command 0x05000000 0] := by decide

/- Memory. -/

theorem test_reset_memory_is_canonical : memoryWf State.reset.msg = true := by decide
theorem test_repeated_offset_is_not_canonical : memoryWf [(3, 0), (3, 1)] = false := by decide
theorem test_offset_beyond_the_space_is_not_canonical : memoryWf [(4294967296, 0)] = false := by decide
theorem test_last_offset_is_canonical : memoryWf [(4294967295, 0)] = true := by decide

/- Witnesses: states and operands that meet the hypotheses of the statements. -/

/-- A state with a 17-byte message and a command to run, and what its MAC leaves. -/
def ready : State := loaded 11 canonical (counting 17)

theorem ready_message : messageIs ready (counting 17) := by
  show memRead ready.msg 0 ready.mlen.toNat = some (counting 17)
  decide

theorem ready_readable : messageReadable ready := (messageReadable_iff ready).mpr ⟨_, ready_message⟩

theorem empty_message (k : Quad) : messageIs (loaded 11 k []) [] := rfl

theorem ready_mac (tl : Nat) (h : tl ≤ 16) : ∃ t, exec (.mac tl) ready = .next t :=
  ⟨_, exec_mac_computes h ready_message⟩

/-- A state with a whole-block message of 16 bytes. -/
def readyFull : State := loaded 11 canonical (counting 16)

theorem readyFull_message : messageIs readyFull (counting 16) := by
  show memRead readyFull.msg 0 readyFull.mlen.toNat = some (counting 16)
  decide

/-- A state with sixteen zero bytes and the zero key. -/
def readyZero : State := loaded 11 Quad.zero (List.replicate 16 0)

theorem witness_DecodeOfEncodeIsTheCommand : (Instr.mac 255).wellFormed = true ∧ (Instr.wrk 3 0).wellFormed = true := by
  decide
theorem witness_EncodeOfDecodeIsTheWord : decode 0x110000FF 7 = .ok (.mac 255) ∧ decode 0x03000003 7 = .ok (.wrk2 3 7) := by
  decide
theorem witness_DecoderFollowsTheOpcodeMap : ∃ r ∈ opcodeMap, r.covers 0x110000FF = true ∧
    decode 0x110000FF 0 = .ok (.mac 255) := ⟨⟨"MAC", 0x11000000, 0xFFFFFF00⟩, by decide, by decide, by decide⟩
theorem witness_UnusedWdataIsIgnored : decode 0x1F000000 0xFFFFFFFF = .ok .clrerr ∧ Instr.clrerr.usesWdata = false := by
  decide
theorem witness_PseudoInstructionsExpand : ScriptLine.moves (.macn 255 1) =
    [.command 0x04000000 1, .command 0x110000FF 0] := by decide
theorem witness_StepRunsTheDecodedCommand : (ready.withFetchWord 32 0x11000010).ph = .idle ∧
    (ready.withFetchWord 32 0x11000010).host = .command 0x11000010 0 :: [] ∧
    decode 0x11000010 0 = .ok (.mac 16) := by decide
theorem witness_IllegalWordRaisesIllegalCommand : (erred.withFetchWord 32 0x11010011).ph = .idle ∧
    (erred.withFetchWord 32 0x11010011).host = .command 0x11010011 0 :: [] ∧
    decode 0x11010011 0 = .illegal .mbzNotZero := by decide
theorem witness_IllegalCommandWinsOverInvalidArgument : opcField 0x11010011 = 0x11 ∧
    16 < (argField 0x11010011).toNat ∧ mbzField 0x11010011 ≠ 0 ∧ (erred.withFetchWord 32 0x11010011).ph = .idle := by decide
theorem witness_PlacedMessageIsReadBack :
    ({ erred with host := [.message [0x61, 0x01]] } : State).host = .message [0x61, 0x01] :: [] ∧
    erred.ph = .idle ∧ [0x61#8, 0x01#8].length ≤ 4294967296 := by decide
theorem witness_ResetRestoresEveryStateElement : ({ erred with host := [.reset] } : State).host = .reset :: [] ∧
    erred.ph = .idle := by decide
theorem witness_EngineHoldsItsStateWithoutAMove : erred.ph = .idle ∧ erred.host = [] := by decide
theorem witness_DoubleIsInjective : double canonical = double canonical := rfl
theorem witness_RotlMovesEveryBit : (1 ≤ 31 ∧ 31 ≤ 31 ∧ 31 < 32) ∧ rotl 0x80000000 31 = 0x40000000 := by decide
theorem witness_MacRejectsTagLengthsAboveSixteen : 16 < 17 ∧ 16 < 255 := by decide
theorem witness_MacComputesTheWholeFunction : 16 ≤ 16 ∧ messageIs ready (counting 17) ∧
    messageIs (loaded 11 canonical []) [] := ⟨by decide, ready_message, empty_message canonical⟩
theorem witness_MacIsRefusedExactlyOnAShortMessage : ∃ s : State, 15 < s.mlen.toNat ∧ readByte s.msg 15 = none ∧
    (∀ a, a < 15 → (readByte s.msg a).isSome = true) :=
  ⟨{ loaded 11 canonical (counting 15) with mlen := 16 }, by decide, by decide, by decide⟩
theorem witness_AbsorbLoopRunsOncePerNonFinalBlock : messageIs ready (counting 17) ∧ nnf ready.mlen.toNat = 1 ∧
    nnf (0xFFFFFFFF#32).toNat = 268435455 := ⟨ready_message, by decide, by decide⟩

/-- A MAC in progress at its last block. -/
def atFinal : State := { ready with pos := 16, tlat := 6, ph := .final }

theorem atFinal_inv : PhaseInv atFinal := by
  refine ⟨?_, ?_, fun h => ?_, fun _ => ?_⟩
  · decide
  · decide
  · cases h
  · decide

theorem witness_PhasesKeepTheSequencingInvariant : PhaseInv atFinal ∧ ∃ t, phaseStep atFinal = .next t := by
  obtain ⟨bs, h, -, -⟩ := final_is_last (s := atFinal) (m := counting 17) ready_message (by decide)
  exact ⟨atFinal_inv, _, finalPhase_some h⟩

/-- The same MAC at its one non-final block and after its last. -/
theorem witness_phases_absorb_and_emit : PhaseInv (initPhase 6 ready) ∧ remaining (initPhase 6 ready) = 17 ∧
    PhaseInv { atFinal with ph := .emit } := by
  refine ⟨⟨by decide, by decide, fun h => ?_, fun h => ?_⟩, by decide, ⟨by decide, by decide, fun h => ?_, fun _ => by decide⟩⟩
  · cases h
  · rcases h with h | h <;> cases h
  · cases h

/-- The idle engine, and a MAC over the empty message, whose ABSORB only moves to FINAL. -/
theorem witness_phases_idle_and_done : PhaseInv State.reset ∧ PhaseInv (initPhase 6 State.reset) ∧
    remaining (initPhase 6 State.reset) = 0 := by
  refine ⟨⟨by decide, by decide, fun _ => rfl, fun h => ?_⟩, ⟨by decide, by decide, fun h => ?_, fun h => ?_⟩, by decide⟩
  · rcases h with h | h <;> cases h
  · cases h
  · rcases h with h | h <;> cases h

theorem witness_MacInProgressRunsToCompletion : PhaseInv atFinal ∧ atFinal.ph ≠ .idle ∧ messageReadable atFinal :=
  ⟨atFinal_inv, by decide, ready_readable⟩
theorem witness_MessagePartition : rlast 0 = 0 ∧ rlast 16 = 16 ∧ rlast 17 = 1 ∧ rlast 15 = 15 := by decide
theorem witness_LastBlockIsRawOrPadded : lastBlock [] = 0x01 :: List.replicate 15 0 ∧
    (lastBlock (counting 15))[15]? = some 0x01 ∧ (lastBlock (counting 16))[15]? = some 0x0F := by decide
theorem witness_PaddingIsInjective : (counting 15).length ≤ 15 ∧ padded (counting 15) = padded (counting 15) := by decide
theorem witness_MacUsesOneSubkeyByTheLength : (∃ t, exec (.mac 16) ready = .next t) ∧
    ¬ (0 < ready.mlen.toNat ∧ ready.mlen.toNat % 16 = 0) ∧ (∃ t, exec (.mac 16) readyFull = .next t) ∧
    (0 < readyFull.mlen.toNat ∧ readyFull.mlen.toNat % 16 = 0) :=
  ⟨ready_mac 16 (by decide), by decide, ⟨_, exec_mac_computes (by decide) readyFull_message⟩, by decide⟩
theorem witness_MacReadsOnlyTheDeclaredBytes : (∀ a, a < ready.mlen.toNat →
    readByte (placeMessage (counting 18)) a = readByte ready.msg a) ∧ placeMessage (counting 18) ≠ ready.msg ∧
    ∃ t, exec (.mac 16) ready = .next t := ⟨by decide, by decide, ready_mac 16 (by decide)⟩
theorem witness_MacDependsOnlyOnItsInputs : ∃ s' : State, s' ≠ ready ∧ s'.k = ready.k ∧ s'.k1 = ready.k1 ∧
    s'.k2 = ready.k2 ∧ s'.mlen = ready.mlen ∧ s'.nroundsPred = ready.nroundsPred ∧
    (∀ a, a < ready.mlen.toNat → readByte s'.msg a = readByte ready.msg a) :=
  ⟨{ ready with msg := placeMessage (counting 18), status := erred.status }, by decide, rfl, rfl, rfl, rfl, rfl, by decide⟩
theorem witness_RepeatedMacGivesTheSameState : (∃ t, exec (.mac 16) ready = .next t) ∧
    ∃ t, exec (.mac 17) ready = .next t := ⟨ready_mac 16 (by decide), _, exec_mac_rejected (by decide)⟩
theorem witness_ShorterTagIsAPrefixOfTheFullTag : 0 ≤ 16 ∧ 16 ≤ 16 ∧ ∃ t, exec (.mac 16) ready = .next t :=
  ⟨by decide, by decide, ready_mac 16 (by decide)⟩
theorem witness_ZeroKeyZeroMessageTagIsZero : readyZero.k = Quad.zero ∧ readyZero.k1 = Quad.zero ∧
    readyZero.k2 = Quad.zero ∧ 0 < readyZero.mlen.toNat ∧ readyZero.mlen.toNat % 16 = 0 ∧
    ∀ a, a < readyZero.mlen.toNat → readByte readyZero.msg a = some 0 := by decide
theorem witness_BanksAreWrittenOnlyByTheirCommands : (∃ t, exec (.wrk 0 1) erred = .next t ∧ t.k ≠ erred.k) ∧
    (∃ t, exec (.wrk1 0 1) erred = .next t ∧ t.k1 ≠ erred.k1) ∧
    (∃ t, exec (.wrk2 0 1) erred = .next t ∧ t.k2 ≠ erred.k2) ∧
    ∃ t, exec (.wrlen 1) erred = .next t ∧ t.mlen ≠ erred.mlen :=
  ⟨⟨_, rfl, by decide⟩, ⟨_, rfl, by decide⟩, ⟨_, rfl, by decide⟩, ⟨_, rfl, by decide⟩⟩
theorem witness_TagIsWrittenOnlyByMac : ∃ t, exec (.mac 17) erred = .next t ∧ t.tag ≠ erred.tag :=
  ⟨_, exec_mac_rejected (by decide), by decide⟩
theorem witness_SkdFollowsDeriveAndWrites : (∃ t, exec .derive State.reset = .next t ∧ t.status.skd = true) ∧
    ∃ t, exec .nop erred = .next t ∧ t.status.skd = true := ⟨⟨_, rfl, rfl⟩, ⟨_, rfl, rfl⟩⟩
theorem witness_FirstErrorStaysUntilCleared : (∃ t, step (erred.withFetchWord 32 0) = .next t) ∧
    erred.status.err ≠ 0 ∧ (erred.withFetchWord 32 0).host = [.command 0 0] := ⟨⟨_, rfl⟩, by decide, by decide⟩
theorem witness_ErrorFieldLocksNothing : (∃ t, exec (.mac 16) ready = .next t) ∧ ∃ t, exec .rdstat erred = .next t :=
  ⟨ready_mac 16 (by decide), _, rfl⟩
theorem witness_KeyIsReadOnlyByDeriveAndMac : Instr.rdk1 3 ≠ .derive ∧ ∀ tl, Instr.rdk1 3 ≠ .mac tl :=
  ⟨by decide, fun _ => nofun⟩
theorem witness_HiddenStateIsUnobservable : ∃ t, exec (.mac 16) ready = .next t := ready_mac 16 (by decide)
theorem witness_EveryCommandCompletesAndResponds : ∀ tl, Instr.mac 16 = .mac tl → tl ≤ 16 → messageReadable ready :=
  fun _ _ _ => ready_readable

/-- The invariant holds in a state with keys, subkeys, a tag, an error and a message. -/
theorem erred_inv : Inv { erred with msg := placeMessage (counting 17) } := by
  refine ⟨⟨rfl, rfl, rfl, rfl, fun h => ?_, ?_, ?_, ?_, ?_⟩, fun _ => ⟨rfl, rfl⟩, ?_⟩
  · cases h
  · decide
  · decide
  · decide
  · decide
  · decide

theorem ready_between : Between ready := by
  refine ⟨rfl, rfl, rfl, rfl, fun _ => rfl, ?_, ?_, ?_, ?_⟩ <;> decide

theorem witness_RdtagReturnsTheTagWord : (Between ready ∧ ready.status.tagv = false) ∧
    Between { erred with msg := placeMessage (counting 17) } ∧ erred.status.tlen.toNat ≤ 4 * 0 + 2 :=
  ⟨⟨ready_between, rfl⟩, erred_inv.between, by decide⟩
theorem witness_RdcfgReturnsTheRoundCount : ∃ t, step { erred with host := [.reset] } = .next t := ⟨_, rfl⟩
theorem witness_StepKeepsTheBetweenCommandsInvariant : Inv { erred with msg := placeMessage (counting 17) } ∧
    ∃ t, step { erred with msg := placeMessage (counting 17) } = .next t := ⟨erred_inv, _, rfl⟩
theorem witness_StepStopsOnlyOnAShortMessage : Inv { erred with msg := placeMessage (counting 17) } := erred_inv

end Sys2Proof.Tests
end

section
/-! PROOFS. The little-endian views of a four-word value and of a block (`00_scope.md` R12, `20_memory.md` R57): each of
WORDS and BYTES word by word and byte by byte, and that they are inverse to one another. -/

namespace Sys2Proof.Machine

@[simp] theorem wordAt_words (b : Block) (i : Fin 4) : wordAt (words b) i = blockWord b i := by
  fin_cases i <;> rfl

@[simp] theorem blockWord_bytes (x : Quad) (i : Fin 4) : blockWord (bytes x) i = wordAt x i := by
  fin_cases i
  · exact le32_byteOf x.w0
  · exact le32_byteOf x.w1
  · exact le32_byteOf x.w2
  · exact le32_byteOf x.w3

@[simp] theorem words_bytes (x : Quad) : words (bytes x) = x :=
  quad_ext_wordAt fun i => by rw [wordAt_words, blockWord_bytes]

/-- Byte 4i + j of BYTES(X) is byte j of X[i] (R12, R57(b)). -/
theorem bytes_getD (x : Quad) (i j : Fin 4) :
    (bytes x).toList.getD (4 * i.val + j.val) 0 = byteOf (wordAt x i) j.val := by
  fin_cases i <;> fin_cases j <;> rfl

/-- Word i of a block is LE32 of its bytes 4i .. 4i+3 (R12, R57(a)). -/
theorem blockWord_eq_le32 (b : Block) (i : Fin 4) : blockWord b i =
    le32 (b.toList.getD (4 * i.val) 0) (b.toList.getD (4 * i.val + 1) 0) (b.toList.getD (4 * i.val + 2) 0)
      (b.toList.getD (4 * i.val + 3) 0) := by
  fin_cases i <;> simp [blockWord]

/-- Byte j of word i of a block is its byte 4i + j (R12). -/
theorem byteOf_blockWord (b : Block) (i j : Fin 4) :
    byteOf (blockWord b i) j.val = b.toList.getD (4 * i.val + j.val) 0 := by
  obtain ⟨h0, h1, h2, h3⟩ := byteOf_le32 (b.toList.getD (4 * i.val) 0) (b.toList.getD (4 * i.val + 1) 0)
    (b.toList.getD (4 * i.val + 2) 0) (b.toList.getD (4 * i.val + 3) 0)
  rw [blockWord_eq_le32]
  fin_cases j
  · exact h0
  · exact h1
  · exact h2
  · exact h3

/-- Blocks with the same byte at every offset 4i + j are equal. -/
theorem block_ext_getD {a b : Block}
    (h : ∀ i j : Fin 4, a.toList.getD (4 * i.val + j.val) 0 = b.toList.getD (4 * i.val + j.val) 0) : a = b := by
  ext n hn : 1
  have hnth := h ⟨n / 4, by omega⟩ ⟨n % 4, by omega⟩
  simpa [Nat.div_add_mod, hn] using hnth

@[simp] theorem bytes_words (b : Block) : bytes (words b) = b :=
  block_ext_getD fun i j => by rw [bytes_getD, wordAt_words, byteOf_blockWord]

/-- Settles O33: from LE32 and its bytes being inverse, word by word and byte by byte. -/
theorem wordsAndBytesAreInverse : Obligations.WordsAndBytesAreInverse := by
  refine ⟨words_bytes, bytes_words, bytes_getD, fun b i => ?_⟩
  rw [wordAt_words, blockWord_eq_le32, le32_toNat]

end Sys2Proof.Machine
end

section
/-! PROOFS. What a command that completes leaves, said once for all fourteen (`40_subkey_deriver.md` R95,
`41_mac_compressor.md` R110, `43_host_access.md` R130 to R142). -/

namespace Sys2Proof.Machine

/-- RDATA of a command that only reads, none for a command that writes state (R130, R136 to R141). -/
def readout (s : State) : Instr → Option Word
  | .nop => some 0
  | .wrk _ _ => none
  | .wrk1 _ _ => none
  | .wrk2 _ _ => none
  | .wrlen _ => none
  | .rdk1 i => some (wordAt s.k1 i)
  | .rdk2 i => some (wordAt s.k2 i)
  | .rdtag i => some (blockWord s.tag i)
  | .rdstat => some (statusWord s.status)
  | .rdcfg => some (cfgWord s)
  | .rdlen => some s.mlen
  | .derive => none
  | .mac _ => none
  | .clrerr => none

/-- `Completion s i t`: from s the command i completes with t. The commands that only read share one case; a MAC
has two, as it rejects its tag length or computes. -/
inductive Completion (s : State) : Instr → State → Prop
  | read {i : Instr} {d : Word} (hd : readout s i = some d) : Completion s i { s with response := some ⟨0, d⟩ }
  | wrk (j : Fin 4) (w : Word) : Completion s (.wrk j w)
      { s with k := withWord s.k w j, status := subkeysStale s.status, response := some ⟨0, 0⟩ }
  | wrk1 (j : Fin 4) (w : Word) : Completion s (.wrk1 j w)
      { s with k1 := withWord s.k1 w j, status := subkeysStale s.status, response := some ⟨0, 0⟩ }
  | wrk2 (j : Fin 4) (w : Word) : Completion s (.wrk2 j w)
      { s with k2 := withWord s.k2 w j, status := subkeysStale s.status, response := some ⟨0, 0⟩ }
  | wrlen (n : Word) : Completion s (.wrlen n) { s with mlen := n, response := some ⟨0, 0⟩ }
  | derive : Completion s .derive
      { s with
        k1 := double s.k
        k2 := double (double s.k)
        status := subkeysDerived s.status
        response := some ⟨0, 0⟩ }
  | macRejected {tl : Nat} (htl : 16 < tl) : Completion s (.mac tl)
      { s with
        status := tagWithdrawn (errRecorded 1 s.status)
        tag := Block.zero
        response := some ⟨1, 0⟩ }
  | macComputed {tl : Nat} {m : List Byte} (htl : tl ≤ 16) (hm : messageIs s m) :
      Completion s (.mac tl) (afterMac s (BitVec.ofNat 5 tl) m)
  | clrerr : Completion s .clrerr { s with status := errCleared s.status, response := some ⟨0, 0⟩ }

/-- A command that only reads executes as its readout says. -/
theorem exec_of_readout {s : State} {i : Instr} {d : Word} (hd : readout s i = some d) :
    exec i s = .next { s with response := some ⟨0, d⟩ } := by
  cases i <;> cases hd <;> rfl

theorem Completion.exec_eq {s t : State} {i : Instr} (hc : Completion s i t) : exec i s = .next t := by
  cases hc with
  | read hd => exact exec_of_readout hd
  | macRejected htl => exact exec_mac_rejected htl
  | macComputed htl hm => exact exec_mac_computes htl hm
  | _ => rfl

theorem mac_completion {s t : State} {tl : Nat} (h : exec (.mac tl) s = .next t) : Completion s (.mac tl) t := by
  obtain ⟨htl, he⟩ | ⟨htl, m, hm, he⟩ | ⟨-, -, off, -, -, -, he⟩ := exec_mac_cases s tl
  · cases he.symm.trans h
    exact .macRejected htl
  · cases he.symm.trans h
    exact .macComputed htl hm
  · cases he.symm.trans h

/-- Everything a command can complete with. -/
theorem exec_eq_next_iff {s t : State} {i : Instr} : exec i s = .next t ↔ Completion s i t := by
  refine ⟨fun h => ?_, Completion.exec_eq⟩
  cases i with
  | wrk j w => cases h; exact .wrk j w
  | wrk1 j w => cases h; exact .wrk1 j w
  | wrk2 j w => cases h; exact .wrk2 j w
  | wrlen n => cases h; exact .wrlen n
  | derive => cases h; exact .derive
  | mac tl => exact mac_completion h
  | clrerr => cases h; exact .clrerr
  | _ => cases h; exact .read rfl

/-- A command that only reads is none of those that touch SKD (R34). -/
theorem ne_of_readout {s : State} {i : Instr} {d : Word} (hd : readout s i = some d) :
    i ≠ .derive ∧ ∀ j w, i ≠ .wrk j w ∧ i ≠ .wrk1 j w ∧ i ≠ .wrk2 j w := by
  refine ⟨?_, fun j w => ⟨?_, ?_, ?_⟩⟩ <;>
  · rintro rfl
    cases hd

end Sys2Proof.Machine
end

section
/-! PROOFS. The invariant of the machine between commands (`10_state.md` R31, R32, R39, R40): it holds at reset
and every step keeps it. -/

namespace Sys2Proof.Machine

@[simp] theorem wordAt_zero (i : Fin 4) : wordAt Quad.zero i = 0 := by
  fin_cases i <;> rfl

/-- Settles O14: each bank is the zero value, each buffer the zero block, and the registers are constants. -/
theorem resetStateHoldsTheTableValues : Obligations.ResetStateHoldsTheTableValues := by
  refine ⟨fun i => ?_, rfl, fun j => ?_, rfl, rfl, rfl, rfl, by decide, by decide, rfl, rfl, rfl⟩
  · exact ⟨wordAt_zero i, wordAt_zero i, wordAt_zero i, wordAt_zero i⟩
  · exact ⟨Block.zero_get j j.isLt, Block.zero_get j j.isLt⟩

/-- The values of reset meet the invariant whatever NROUNDS, the message and the host's moves are (R40, R41). -/
theorem inv_reset (rounds : Fin 255) {m : Memory} (hm : memoryWf m = true) (moves : List HostMove) :
    Inv { State.reset with nroundsPred := rounds, msg := m, host := moves } where
  between :=
    { idle := rfl, pos := rfl, v := rfl, blk := rfl
      tlenIfNoTag := fun _ => rfl
      tagBeyond := fun j _ => Block.zero_get j j.isLt
      err := Nat.zero_le 2, tlen := Nat.zero_le 16, tlat := Nat.zero_le 16 }
  skd := nofun
  memory := hm

/-- Settles O57: the reset state is the values of reset with an empty message space. -/
theorem resetStateMeetsTheInvariant : Obligations.ResetStateMeetsTheInvariant :=
  inv_reset Config.defaultRoundsPred rfl []

/-- Recording a cause code of R150 keeps ERR at most 2, whether the first error stays or the code is recorded. -/
theorem errRecorded_err_le {c : BitVec 4} {st : Status} (hc : c.toNat ≤ 2) (he : st.err.toNat ≤ 2) :
    (errRecorded c st).err.toNat ≤ 2 := by
  rw [errRecorded_err]
  split
  · exact hc
  · exact he

/-- A computed MAC ends between commands from any state with ERR at most 2: EMIT sets every other value (R114). -/
theorem between_afterMac {s : State} {tl : Nat} (m : List Byte) (htl : tl ≤ 16) (he : s.status.err.toNat ≤ 2) :
    Between (afterMac s (BitVec.ofNat 5 tl) m) := by
  have hlen : (BitVec.ofNat 5 tl).toNat ≤ 16 := (tagLength_toNat htl).trans_le htl
  exact
    { idle := rfl, pos := rfl, v := rfl, blk := rfl
      tlenIfNoTag := nofun
      tagBeyond := fun j hj => (keepFirst_get _ _ _ j.isLt).trans (if_neg (Nat.not_lt.mpr hj))
      err := he, tlen := hlen, tlat := hlen }

/-- Every completing command keeps the invariant. SKD = 1 needs a look only where a key or subkey is written: WRK,
WRK1 and WRK2 clear it, DERIVE computes the subkeys with it (R34). -/
theorem Completion.keeps_inv {s t : State} {i : Instr} (hc : Completion s i t) (hs : Inv s) : Inv t := by
  obtain ⟨hb, hskd, hmem⟩ := hs
  cases hc with
  | read hd => exact ⟨{ hb with }, hskd, hmem⟩
  | wrk j w => exact ⟨{ hb with }, nofun, hmem⟩
  | wrk1 j w => exact ⟨{ hb with }, nofun, hmem⟩
  | wrk2 j w => exact ⟨{ hb with }, nofun, hmem⟩
  | wrlen n => exact ⟨{ hb with }, hskd, hmem⟩
  | derive => exact ⟨{ hb with }, fun _ => ⟨rfl, rfl⟩, hmem⟩
  | macRejected htl =>
    have herr := errRecorded_err_le (c := 1) (by decide) hb.err
    exact ⟨{ hb with
      tlenIfNoTag := fun _ => rfl
      tagBeyond := fun j _ => Block.zero_get j j.isLt
      err := herr
      tlen := Nat.zero_le 16 }, by simpa [skdSound] using hskd, hmem⟩
  | macComputed htl hm => exact ⟨between_afterMac _ htl hb.err, hskd, hmem⟩
  | clrerr => exact ⟨{ hb with err := Nat.zero_le 2 }, hskd, hmem⟩

/-- A command word keeps the invariant: a legal one as its command does, an illegal one only records the error. -/
theorem runCommand_keeps_inv {cw wdata : Word} {s t : State} (hs : Inv s) (h : runCommand cw wdata s = .next t) :
    Inv t := by
  cases hdec : decode cw wdata with
  | ok i =>
    rw [runCommand_ok s hdec] at h
    exact (exec_eq_next_iff.mp h).keeps_inv hs
  | illegal why =>
    obtain ⟨hb, hskd, hmem⟩ := hs
    cases (runCommand_illegal s hdec).symm.trans h
    have herr := errRecorded_err_le (c := 2) (by decide) hb.err
    exact ⟨{ hb with
      tlenIfNoTag := by simpa using hb.tlenIfNoTag
      tagBeyond := by simpa using hb.tagBeyond
      err := herr
      tlen := by simpa using hb.tlen }, by simpa [skdSound] using hskd, hmem⟩

/-- Settles O58, by the host's next move: a command, a message that is placed in canonical form, a reset, or none. -/
theorem stepKeepsTheBetweenCommandsInvariant : Obligations.StepKeepsTheBetweenCommandsInvariant := by
  intro s t hs h
  obtain ⟨hb, hskd, hmem⟩ := hs
  cases hhost : s.host with
  | nil =>
    cases (step_none hb.idle hhost).symm.trans h
    exact ⟨{ hb with }, hskd, hmem⟩
  | cons move rest =>
    cases move with
    | command cw wdata =>
      rw [step_command hb.idle hhost] at h
      have htaken : Inv { s with host := rest } := ⟨{ hb with }, hskd, hmem⟩
      exact runCommand_keeps_inv htaken h
    | message bs =>
      cases (step_message hb.idle hhost).symm.trans h
      exact ⟨{ hb with }, hskd, placeMessage_wf bs⟩
    | reset =>
      cases (step_reset hb.idle hhost).symm.trans h
      exact inv_reset s.nroundsPred hmem rest

end Sys2Proof.Machine
end

section
/-! PROOFS. Which command writes which state element, and what no command shows (`10_state.md` R21 to R27, R34, R38). -/

namespace Sys2Proof.Machine

theorem Completion.k_same_or_wrk {s t : State} {i : Instr} (hc : Completion s i t) :
    t.k = s.k ∨ ∃ j w, i = .wrk j w := by
  cases hc with
  | wrk j w => exact .inr ⟨j, w, rfl⟩
  | _ => exact .inl rfl

theorem Completion.k1_same_or_wrk1_or_derive {s t : State} {i : Instr} (hc : Completion s i t) :
    t.k1 = s.k1 ∨ (∃ j w, i = .wrk1 j w) ∨ i = .derive := by
  cases hc with
  | wrk1 j w => exact .inr (.inl ⟨j, w, rfl⟩)
  | derive => exact .inr (.inr rfl)
  | _ => exact .inl rfl

theorem Completion.k2_same_or_wrk2_or_derive {s t : State} {i : Instr} (hc : Completion s i t) :
    t.k2 = s.k2 ∨ (∃ j w, i = .wrk2 j w) ∨ i = .derive := by
  cases hc with
  | wrk2 j w => exact .inr (.inl ⟨j, w, rfl⟩)
  | derive => exact .inr (.inr rfl)
  | _ => exact .inl rfl

theorem Completion.mlen_same_or_wrlen {s t : State} {i : Instr} (hc : Completion s i t) :
    t.mlen = s.mlen ∨ ∃ n, i = .wrlen n := by
  cases hc with
  | wrlen n => exact .inr ⟨n, rfl⟩
  | _ => exact .inl rfl

/-- Settles O49, bank by bank. -/
theorem banksAreWrittenOnlyByTheirCommands : Obligations.BanksAreWrittenOnlyByTheirCommands := by
  intro i s t h
  have hc := exec_eq_next_iff.mp h
  exact ⟨hc.k_same_or_wrk.resolve_left, hc.k1_same_or_wrk1_or_derive.resolve_left,
    hc.k2_same_or_wrk2_or_derive.resolve_left, hc.mlen_same_or_wrlen.resolve_left⟩

/-- Settles O51: DERIVE sets SKD, WRK, WRK1 and WRK2 clear it, and every other completion keeps it. -/
theorem skdFollowsDeriveAndWrites : Obligations.SkdFollowsDeriveAndWrites := by
  intro i s t h
  cases exec_eq_next_iff.mp h with
  | read hd => simp [ne_of_readout hd]
  | macComputed htl hm => simp [afterMac]
  | _ => simp

/-- Settles O55: the completion from the other state is the same case with the same operands, since neither a readout
nor the message nor R116's function reads V, POS, TLAT or BLK. -/
theorem hiddenStateIsUnobservable : Obligations.HiddenStateIsUnobservable := by
  intro i s t v pos tlat blk h
  simp only [exec_eq_next_iff] at h ⊢
  cases h with
  | read hd => exact ⟨_, .read (by cases i <;> exact hd), rfl⟩
  | wrk j w => exact ⟨_, .wrk j w, rfl⟩
  | wrk1 j w => exact ⟨_, .wrk1 j w, rfl⟩
  | wrk2 j w => exact ⟨_, .wrk2 j w, rfl⟩
  | wrlen n => exact ⟨_, .wrlen n, rfl⟩
  | derive => exact ⟨_, .derive, rfl⟩
  | macRejected htl => exact ⟨_, .macRejected htl, rfl⟩
  | macComputed htl hm => exact ⟨_, .macComputed htl hm, rfl⟩
  | clrerr => exact ⟨_, .clrerr, rfl⟩

end Sys2Proof.Machine
end

section
/-! PROOFS. Where a command and a step stop: only at a MAC whose premise fails (`20_memory.md` R51, R53, R68,
`30_encoding.md` R70, R71, `93_implementation_defined.md` U1). -/

namespace Sys2Proof.Machine

/-- A MAC stops exactly where its tag length is legal and its message is not readable (R51). -/
theorem exec_mac_completes_iff (s : State) (tl : Nat) :
    completes (exec (.mac tl) s) ↔ (tl ≤ 16 → messageReadable s) := by
  obtain ⟨htl, he⟩ | ⟨-, m, hm, he⟩ | ⟨htl, hshort, off, -, -, -, he⟩ := exec_mac_cases s tl
  · exact ⟨fun _ hle => absurd hle (Nat.not_le.mpr htl), fun _ => ⟨_, he⟩⟩
  · exact ⟨fun _ _ => (messageReadable_iff s).mpr ⟨m, hm⟩, fun _ => ⟨_, he⟩⟩
  · refine ⟨?_, fun h => absurd (h htl) hshort⟩
    rintro ⟨t, ht⟩
    cases he.symm.trans ht

/-- A MAC is the one command that can stop (R68, R71). -/
theorem exec_completes_iff (i : Instr) (s : State) :
    completes (exec i s) ↔ ∀ tl, i = .mac tl → tl ≤ 16 → messageReadable s := by
  cases i with
  | mac tl => simpa using exec_mac_completes_iff s tl
  | _ => exact ⟨fun _ => nofun, fun _ => ⟨_, rfl⟩⟩

/-- A command word stops only as the MAC it decodes to; an illegal word completes (R79, R155). -/
theorem runCommand_completes_iff (cw wdata : Word) (s : State) :
    completes (runCommand cw wdata s) ↔ ∀ tl, decode cw wdata = .ok (.mac tl) → tl ≤ 16 → messageReadable s := by
  cases hdec : decode cw wdata with
  | ok i => simpa [runCommand_ok s hdec] using exec_completes_iff i s
  | illegal why => exact ⟨fun _ => nofun, fun _ => ⟨_, runCommand_illegal s hdec⟩⟩

/-- Settles O36: the premise decides completion, and the refusal names the first gap. -/
theorem macIsRefusedExactlyOnAShortMessage : Obligations.MacIsRefusedExactlyOnAShortMessage := by
  intro s tl htl
  refine ⟨?_, fun _ => exec_mac_refused htl⟩
  rw [exec_mac_completes_iff, forall_prop_of_true htl]

/-- A MAC over a message space that agrees below MLEN does what it does over the first, and keeps the space it is
given (R53). -/
theorem exec_mac_of_msg_agrees {s : State} {msg' : Memory}
    (hagree : ∀ a, a < s.mlen.toNat → readByte msg' a = readByte s.msg a) (tl : Nat) :
    exec (.mac tl) { s with msg := msg' } = andThen (exec (.mac tl) s) fun t => .next { t with msg := msg' } := by
  obtain ⟨htl, he⟩ | ⟨htl, m, hm, he⟩ | ⟨htl, -, off, hoff, hnone, hall, he⟩ := exec_mac_cases s tl
  · rw [he, exec_mac_rejected htl]
    rfl
  · have hm' := (messageIs_congr (s := s) (s' := { s with msg := msg' }) rfl hagree m).mpr hm
    rw [he, exec_mac_computes htl hm']
    rfl
  · have hnone' : readByte msg' off = none := (hagree off hoff).trans hnone
    have hall' : ∀ a, a < off → (readByte msg' a).isSome = true := fun a ha => by
      rw [hagree a (ha.trans hoff)]
      exact hall a ha
    rw [he, exec_mac_refused (s := { s with msg := msg' }) htl hoff hnone' hall', andThen_refused]

/-- Settles O44: the two runs differ only in the message space they carry along. -/
theorem macReadsOnlyTheDeclaredBytes : Obligations.MacReadsOnlyTheDeclaredBytes := by
  intro s tl msg' hagree
  refine ⟨fun t ht => ?_, fun r hr => ?_⟩
  · rw [exec_mac_of_msg_agrees hagree, ht, andThen_next]
  · rw [exec_mac_of_msg_agrees hagree, hr, andThen_refused]

/-- A completed command responds OK, except a MAC with an illegal tag length, which responds 1, 0 (R70, R150). -/
theorem Completion.responds {s t : State} {i : Instr} (hc : Completion s i t) :
    ((∃ tl, i = .mac tl ∧ 16 < tl) ∧ t.response = some ⟨1, 0⟩) ∨
    ((¬ ∃ tl, i = .mac tl ∧ 16 < tl) ∧ ∃ d, t.response = some ⟨0, d⟩) := by
  cases hc with
  | read hd =>
    refine .inr ⟨?_, _, rfl⟩
    rintro ⟨tl, rfl, -⟩
    cases hd
  | macRejected htl => exact .inl ⟨⟨_, rfl, htl⟩, rfl⟩
  | macComputed htl hm =>
    refine .inr ⟨?_, _, rfl⟩
    rintro ⟨_, ⟨⟩, hgt⟩
    exact absurd htl (Nat.not_le.mpr hgt)
  | _ => exact .inr ⟨nofun, _, rfl⟩

/-- A completed command leaves PH alone or, as a computed MAC, ends in IDLE (R38, R114). -/
theorem Completion.idle_of_idle {s t : State} {i : Instr} (hc : Completion s i t) (hs : s.ph = .idle) :
    t.ph = .idle := by
  cases hc with
  | macComputed htl hm => rfl
  | _ => exact hs

/-- Settles O56: the premise gives the completion, and the completion gives the response and the phase. -/
theorem everyCommandCompletesAndResponds : Obligations.EveryCommandCompletesAndResponds := by
  intro i s hpremise
  obtain ⟨t, ht⟩ := (exec_completes_iff i s).mpr hpremise
  have hc := exec_eq_next_iff.mp ht
  obtain ⟨hmac, hr⟩ | ⟨hmac, d, hr⟩ := hc.responds
  · exact ⟨t, ⟨1, 0⟩, ht, hr, .inr rfl, iff_of_true rfl hmac, fun _ => rfl, hc.idle_of_idle⟩
  · have hne : (0 : BitVec 4) ≠ 1 := by decide
    exact ⟨t, ⟨0, d⟩, ht, hr, .inl rfl, iff_of_false hne hmac, fun h => absurd rfl h, hc.idle_of_idle⟩

/-- Settles O59, by the host's next move: of the four kinds only a command word can stop. -/
theorem stepStopsOnlyOnAShortMessage : Obligations.StepStopsOnlyOnAShortMessage := by
  intro s hs
  have hidle := hs.between.idle
  cases hhost : s.host with
  | nil => exact iff_of_true ⟨_, step_none hidle hhost⟩ (by simp)
  | cons move rest =>
    cases move with
    | command cw wdata =>
      have hsame : messageReadable { s with host := rest } ↔ messageReadable s := Iff.rfl
      rw [step_command hidle hhost, runCommand_completes_iff, hsame]
      simp
    | message bs => exact iff_of_true ⟨_, step_message hidle hhost⟩ (by simp)
    | reset => exact iff_of_true ⟨_, step_reset hidle hhost⟩ (by simp)

/-- The reset state with one byte declared, none placed, and MAC 0 to come: between commands, and its step stops. -/
def oneByteUnplaced : State := { State.reset with mlen := 1, host := [.command 0x11000000 0] }

theorem oneByteUnplaced_inv : Inv oneByteUnplaced :=
  let ⟨hb, hskd, hmem⟩ := resetStateMeetsTheInvariant
  ⟨{ hb with }, hskd, hmem⟩

/-- The stopping side of O59 is met. -/
theorem oneByteUnplaced_stops : ¬ completes (step oneByteUnplaced) := by
  rw [stepStopsOnlyOnAShortMessage _ oneByteUnplaced_inv, not_not]
  exact ⟨0x11000000, 0, [], 0, rfl, by decide, by decide, fun h => absurd (h 0 (by decide)) (by decide)⟩

/-- The refused side of O44 is met, by a message space that holds a byte only beyond MLEN. -/
theorem oneByteUnplaced_refused_alike :
    exec (.mac 0) { oneByteUnplaced with msg := [(1, 0xAB)] } = .refused (.messageTooShort 0) :=
  (macReadsOnlyTheDeclaredBytes oneByteUnplaced 0 [(1, 0xAB)] (by decide)).2 _ rfl

end Sys2Proof.Machine
end

section
/-! PROOFS. The decoder and the encoder of command words are inverse to one another (`30_encoding.md` R72 to R85): what
decodes is exactly what a well-formed command encodes to, with the data word where the command carries one. -/

namespace Sys2Proof

/-- The command with w for its data word; a command that ignores WDATA stays (R78). -/
def Instr.withWdata (w : Word) : Instr → Instr
  | .wrk i _ => .wrk i w
  | .wrk1 i _ => .wrk1 i w
  | .wrk2 i _ => .wrk2 i w
  | .wrlen _ => .wrlen w
  | i => i

theorem Instr.withWdata_of_unused {i : Instr} (h : i.usesWdata = false) (w : Word) : i.withWdata w = i := by
  cases i with
  | wrk j v => cases h
  | wrk1 j v => cases h
  | wrk2 j v => cases h
  | wrlen n => cases h
  | _ => rfl

@[simp] theorem Instr.mnemonic_withWdata (i : Instr) (w : Word) : (i.withWdata w).mnemonic = i.mnemonic := by
  cases i <;> rfl

@[simp] theorem Instr.withWdata_encode (i : Instr) : i.withWdata (encode i).2 = i := by
  cases i <;> rfl

theorem Instr.encode_withWdata (i : Instr) (w : Word) :
    encode (i.withWdata w) = ((encode i).1, if i.usesWdata then w else 0) := by
  cases i <;> rfl

@[simp] theorem decodeZ_commandWord (opc : BitVec 8) (i : Instr) : decodeZ (commandWord opc 0#8) i = .ok i := by
  simp [decodeZ]

@[simp] theorem decodeX_commandWord (opc : BitVec 8) (j : Fin 4) (f : Fin 4 → Instr) :
    decodeX (commandWord opc (BitVec.ofNat 8 j.val)) f = .ok (f j) := by
  simp only [decodeX, argHighField_commandWord, highBits_of_index, if_true, idxField_commandWord, indexBits_of_index]

theorem decodeT_commandWord (opc : BitVec 8) {tl : Nat} (h : tl < 256) (f : Nat → Instr) :
    decodeT (commandWord opc (BitVec.ofNat 8 tl)) f = .ok (f tl) := by
  simp [decodeT, Nat.mod_eq_of_lt h]

/-- The word of a well-formed command decodes, whatever WDATA is, to the command with that data word (R78, R79). -/
theorem decode_encode {i : Instr} (h : i.wellFormed = true) (w : Word) :
    decode (encode i).1 w = .ok (i.withWdata w) := by
  cases i with
  | mac tl =>
    have htl : tl < 256 := of_decide_eq_true h
    simp [encode, decode, Instr.withWdata, decodeT_commandWord _ htl]
  | _ => simp [encode, decode, Instr.withWdata]

/-- Settles O2: the data word the encoding carries is the command's own. -/
theorem decodeOfEncodeIsTheCommand : Obligations.DecodeOfEncodeIsTheCommand := by
  intro i h
  rw [decode_encode h, Instr.withWdata_encode]

theorem ofNat_argField (cw : Word) : BitVec.ofNat 8 (argField cw).toNat = argField cw := by
  rw [BitVec.ofNat_toNat, BitVec.setWidth_eq]

/-- A word that decodes is the word of its command, one format at a time (R73, R74, R75). -/
theorem encode_of_decode {cw w : Word} {i : Instr} (h : decode cw w = .ok i) :
    i.wellFormed = true ∧ (encode i).1 = cw ∧ i.withWdata w = i := by
  obtain ⟨hmbz, hformat⟩ := decode_ok h
  have hcw := commandWord_fields hmbz
  obtain ⟨harg, hrow⟩ | ⟨hhigh, hrow⟩ | ⟨hopc, rfl⟩ := hformat
  · rw [harg] at hcw
    obtain ⟨ho, rfl⟩ | ⟨ho, rfl⟩ | ⟨ho, rfl⟩ | ⟨ho, rfl⟩ | ⟨ho, rfl⟩ | ⟨ho, rfl⟩ | ⟨ho, rfl⟩ := hrow <;>
      exact ⟨rfl, by rw [ho] at hcw; exact hcw, rfl⟩
  · rw [arg_eq_index hmbz hhigh] at hcw
    obtain ⟨ho, rfl⟩ | ⟨ho, rfl⟩ | ⟨ho, rfl⟩ | ⟨ho, rfl⟩ | ⟨ho, rfl⟩ | ⟨ho, rfl⟩ := hrow <;>
      exact ⟨rfl, by rw [ho] at hcw; exact hcw, rfl⟩
  · have htl : (argField cw).toNat < 256 := (argField cw).isLt
    refine ⟨decide_eq_true htl, ?_, rfl⟩
    rw [encode, ofNat_argField]
    rwa [hopc] at hcw

/-- Legality is a matter of the command word alone (R78, R79). -/
theorem exists_decode_iff {cw w : Word} :
    (∃ i, decode cw w = .ok i) ↔ ∃ i : Instr, i.wellFormed = true ∧ (encode i).1 = cw := by
  constructor
  · rintro ⟨i, h⟩
    obtain ⟨hwf, hcw, -⟩ := encode_of_decode h
    exact ⟨i, hwf, hcw⟩
  · rintro ⟨i, hwf, rfl⟩
    exact ⟨_, decode_encode hwf w⟩

/-- Settles O3: the word is the command's own, and so is the data word the command carries. -/
theorem encodeOfDecodeIsTheWord : Obligations.EncodeOfDecodeIsTheWord := by
  intro cw w i h
  obtain ⟨hwf, hcw, hw⟩ := encode_of_decode h
  exact ⟨hwf, by rw [← hcw, ← Instr.encode_withWdata, hw]⟩

/-- Settles O7: with another WDATA the word decodes to the same command with another data word. -/
theorem unusedWdataIsIgnored : Obligations.UnusedWdataIsIgnored := by
  intro cw w w' i h
  obtain ⟨hwf, rfl, -⟩ := encode_of_decode h
  have hdec := decode_encode hwf w'
  exact ⟨fun hu => by rw [hdec, Instr.withWdata_of_unused hu], _, hdec, Instr.mnemonic_withWdata i w'⟩

/-- Settles O1: fixed words, and MAC 17 by the entry of every tag length above 16. -/
theorem workedEncodingsDecode : Obligations.WorkedEncodingsDecode := by
  refine ⟨by decide, by decide, by decide, ⟨_, Machine.exec_mac_rejected (by decide), rfl⟩, ?_⟩
  decide

end Sys2Proof
end

section
/-! PROOFS. The opcode map and the list of legal words against the decoder (`30_encoding.md` R77, R79, R80). -/

namespace Sys2Proof

/-- Every command's word matches the row of its mnemonic (R77). -/
theorem Laws.encodingRow (i : Instr) : Laws.EncodingRow.Statement i := by
  cases i with
  | nop => exact Laws.EncodingRow.nop
  | wrk j w => exact Laws.EncodingRow.wrk j w
  | wrk1 j w => exact Laws.EncodingRow.wrk1 j w
  | wrk2 j w => exact Laws.EncodingRow.wrk2 j w
  | wrlen n => exact Laws.EncodingRow.wrlen n
  | rdk1 j => exact Laws.EncodingRow.rdk1 j
  | rdk2 j => exact Laws.EncodingRow.rdk2 j
  | rdtag j => exact Laws.EncodingRow.rdtag j
  | rdstat => exact Laws.EncodingRow.rdstat
  | rdcfg => exact Laws.EncodingRow.rdcfg
  | rdlen => exact Laws.EncodingRow.rdlen
  | derive => exact Laws.EncodingRow.derive
  | mac tl => exact Laws.EncodingRow.mac tl
  | clrerr => exact Laws.EncodingRow.clrerr

/-- A mnemonic names one row of the opcode map (R77). -/
theorem row_eq_of_mnemonic {r r' : OpcodeRow} (hr : r ∈ opcodeMap) (hr' : r' ∈ opcodeMap)
    (h : r.mnemonic = r'.mnemonic) : r = r' :=
  List.inj_on_of_nodup_map (by decide : (opcodeMap.map OpcodeRow.mnemonic).Nodup) hr hr' h

/-- A Z-format row matches one word (R73, R77). -/
theorem zWord_of_covers {name : String} {m cw : Word} {o : BitVec 8} (hm : m = commandWord o 0)
    (h : OpcodeRow.covers ⟨name, m, 0xFFFFFFFF⟩ cw = true) : commandWord o 0 = cw := by
  obtain ⟨hmbz, rfl, harg⟩ := (covers_Z cw o m hm).mp h
  rw [← harg, commandWord_fields hmbz]

/-- An X-format row matches a word for each index (R74, R77). -/
theorem xWord_of_covers {name : String} {m cw : Word} {o : BitVec 8} (hm : m = commandWord o 0)
    (h : OpcodeRow.covers ⟨name, m, 0xFFFFFFFC⟩ cw = true) :
    ∃ j : Fin 4, commandWord o (BitVec.ofNat 8 j.val) = cw := by
  obtain ⟨hmbz, rfl, hhigh⟩ := (covers_X cw o m hm).mp h
  exact ⟨idxField cw, by rw [← arg_eq_index hmbz hhigh, commandWord_fields hmbz]⟩

/-- The T-format row matches a word for each operand byte (R75, R77). -/
theorem tWord_of_covers {name : String} {m cw : Word} {o : BitVec 8} (hm : m = commandWord o 0)
    (h : OpcodeRow.covers ⟨name, m, 0xFFFFFF00⟩ cw = true) :
    ∃ tl, tl < 256 ∧ commandWord o (BitVec.ofNat 8 tl) = cw := by
  obtain ⟨hmbz, rfl⟩ := (covers_T cw o m hm).mp h
  refine ⟨(argField cw).toNat, (argField cw).isLt, ?_⟩
  rw [ofNat_argField, commandWord_fields hmbz]

/-- A word that a row matches is the word of a command of the row's mnemonic, row by row (R77). -/
theorem command_of_covers {r : OpcodeRow} (hr : r ∈ opcodeMap) {cw : Word} (h : r.covers cw = true) :
    ∃ i : Instr, i.wellFormed = true ∧ (encode i).1 = cw ∧ i.mnemonic = r.mnemonic := by
  simp only [opcodeMap, List.mem_cons, List.not_mem_nil, or_false] at hr
  obtain rfl | rfl | rfl | rfl | rfl | rfl | rfl | rfl | rfl | rfl | rfl | rfl | rfl | rfl := hr
  · exact ⟨.nop, rfl, zWord_of_covers (by decide) h, rfl⟩
  · obtain ⟨j, hj⟩ := xWord_of_covers (o := 0x01) (by decide) h
    exact ⟨.wrk j 0, rfl, hj, rfl⟩
  · obtain ⟨j, hj⟩ := xWord_of_covers (o := 0x02) (by decide) h
    exact ⟨.wrk1 j 0, rfl, hj, rfl⟩
  · obtain ⟨j, hj⟩ := xWord_of_covers (o := 0x03) (by decide) h
    exact ⟨.wrk2 j 0, rfl, hj, rfl⟩
  · exact ⟨.wrlen 0, rfl, zWord_of_covers (by decide) h, rfl⟩
  · obtain ⟨j, hj⟩ := xWord_of_covers (o := 0x08) (by decide) h
    exact ⟨.rdk1 j, rfl, hj, rfl⟩
  · obtain ⟨j, hj⟩ := xWord_of_covers (o := 0x09) (by decide) h
    exact ⟨.rdk2 j, rfl, hj, rfl⟩
  · obtain ⟨j, hj⟩ := xWord_of_covers (o := 0x0A) (by decide) h
    exact ⟨.rdtag j, rfl, hj, rfl⟩
  · exact ⟨.rdstat, rfl, zWord_of_covers (by decide) h, rfl⟩
  · exact ⟨.rdcfg, rfl, zWord_of_covers (by decide) h, rfl⟩
  · exact ⟨.rdlen, rfl, zWord_of_covers (by decide) h, rfl⟩
  · exact ⟨.derive, rfl, zWord_of_covers (by decide) h, rfl⟩
  · obtain ⟨tl, htl, hcw⟩ := tWord_of_covers (o := 0x11) (by decide) h
    exact ⟨.mac tl, decide_eq_true htl, hcw, rfl⟩
  · exact ⟨.clrerr, rfl, zWord_of_covers (by decide) h, rfl⟩

/-- A row matches exactly the words that decode to a command of its mnemonic (R77). -/
theorem covers_iff_decode {r : OpcodeRow} (hr : r ∈ opcodeMap) (cw w : Word) :
    r.covers cw = true ↔ ∃ i, decode cw w = .ok i ∧ i.mnemonic = r.mnemonic := by
  constructor
  · intro h
    obtain ⟨i, hwf, rfl, hname⟩ := command_of_covers hr h
    exact ⟨i.withWdata w, decode_encode hwf w, (Instr.mnemonic_withWdata i w).trans hname⟩
  · rintro ⟨i, hdec, hname⟩
    obtain ⟨-, rfl, -⟩ := encode_of_decode hdec
    obtain ⟨r', hr', hname', hcovers⟩ := Laws.encodingRow i
    rwa [row_eq_of_mnemonic hr hr' (hname.symm.trans hname'.symm)]

/-- Settles O4: two rows that match one word bear the mnemonic of the one command it decodes to. -/
theorem decoderFollowsTheOpcodeMap : Obligations.DecoderFollowsTheOpcodeMap := by
  refine ⟨fun cw w r hr => covers_iff_decode hr cw w, fun cw w i _ => ?_, fun cw r r' hr hr' h h' => ?_⟩
  · obtain ⟨r, hr, hname, -⟩ := Laws.encodingRow i
    exact ⟨r, hr, hname⟩
  · obtain ⟨i, hdec, hname⟩ := (covers_iff_decode hr cw 0).mp h
    obtain ⟨i', hdec', hname'⟩ := (covers_iff_decode hr' cw 0).mp h'
    cases hdec.symm.trans hdec'
    exact row_eq_of_mnemonic hr hr' (hname.symm.trans hname')

/-- The legal words by their format (R79). -/
theorem mem_legalWords_iff {cw : Word} : cw ∈ legalWords ↔
    (∃ o ∈ [(0x00 : BitVec 8), 0x04, 0x0B, 0x0C, 0x0D, 0x10, 0x1F], commandWord o 0 = cw) ∨
    (∃ o ∈ [(0x01 : BitVec 8), 0x02, 0x03, 0x08, 0x09, 0x0A], ∃ j : Fin 4,
      commandWord o (BitVec.ofNat 8 j.val) = cw) ∨
    ∃ tl < 256, commandWord 0x11 (BitVec.ofNat 8 tl) = cw := by
  simp only [legalWords, List.mem_append, List.mem_map, List.mem_flatMap, List.mem_range, or_assoc, Fin.exists_iff,
    exists_prop]

/-- The list holds the words of the well-formed commands (R79). -/
theorem mem_legalWords_iff_encode {cw : Word} :
    cw ∈ legalWords ↔ ∃ i : Instr, i.wellFormed = true ∧ (encode i).1 = cw := by
  rw [mem_legalWords_iff]
  constructor
  · rintro (⟨o, ho, hcw⟩ | ⟨o, ho, j, hcw⟩ | ⟨tl, htl, hcw⟩)
    · simp only [List.mem_cons, List.not_mem_nil, or_false] at ho
      obtain rfl | rfl | rfl | rfl | rfl | rfl | rfl := ho
      · exact ⟨.nop, rfl, hcw⟩
      · exact ⟨.wrlen 0, rfl, hcw⟩
      · exact ⟨.rdstat, rfl, hcw⟩
      · exact ⟨.rdcfg, rfl, hcw⟩
      · exact ⟨.rdlen, rfl, hcw⟩
      · exact ⟨.derive, rfl, hcw⟩
      · exact ⟨.clrerr, rfl, hcw⟩
    · simp only [List.mem_cons, List.not_mem_nil, or_false] at ho
      obtain rfl | rfl | rfl | rfl | rfl | rfl := ho
      · exact ⟨.wrk j 0, rfl, hcw⟩
      · exact ⟨.wrk1 j 0, rfl, hcw⟩
      · exact ⟨.wrk2 j 0, rfl, hcw⟩
      · exact ⟨.rdk1 j, rfl, hcw⟩
      · exact ⟨.rdk2 j, rfl, hcw⟩
      · exact ⟨.rdtag j, rfl, hcw⟩
    · exact ⟨.mac tl, decide_eq_true htl, hcw⟩
  · rintro ⟨i, hwf, rfl⟩
    cases i with
    | wrk j _ => exact .inr (.inl ⟨_, by decide, j, rfl⟩)
    | wrk1 j _ => exact .inr (.inl ⟨_, by decide, j, rfl⟩)
    | wrk2 j _ => exact .inr (.inl ⟨_, by decide, j, rfl⟩)
    | rdk1 j => exact .inr (.inl ⟨_, by decide, j, rfl⟩)
    | rdk2 j => exact .inr (.inl ⟨_, by decide, j, rfl⟩)
    | rdtag j => exact .inr (.inl ⟨_, by decide, j, rfl⟩)
    | mac tl => exact .inr (.inr ⟨tl, of_decide_eq_true hwf, rfl⟩)
    | _ => exact .inl ⟨_, by decide, rfl⟩

theorem opc_eq_of_commandWord_eq {o o' a a' : BitVec 8} (h : commandWord o a = commandWord o' a') : o = o' := by
  simpa using congrArg opcField h

theorem arg_eq_of_commandWord_eq {o o' a a' : BitVec 8} (h : commandWord o a = commandWord o' a') : a = a' := by
  simpa using congrArg argField h

/-- No word is listed twice: the 31 words of the Z and X formats by inspection, the T-format words by their operand
byte, and the two parts by the opcode 0x11. -/
theorem legalWords_nodup : legalWords.Nodup := by
  refine List.nodup_append.mpr ⟨by decide, ?_, ?_⟩
  · refine List.Nodup.map_on (fun a ha b hb hab => ?_) List.nodup_range
    have htoNat := congrArg BitVec.toNat (arg_eq_of_commandWord_eq hab)
    simpa [Nat.mod_eq_of_lt (List.mem_range.mp ha), Nat.mod_eq_of_lt (List.mem_range.mp hb)] using htoNat
  · rintro cw hcw cw' hcw' rfl
    obtain ⟨tl, -, hmac⟩ := List.mem_map.mp hcw'
    obtain hz | hx := List.mem_append.mp hcw
    · obtain ⟨o, ho, rfl⟩ := List.mem_map.mp hz
      obtain rfl := opc_eq_of_commandWord_eq hmac
      exact absurd ho (by decide)
    · obtain ⟨o, ho, hx⟩ := List.mem_flatMap.mp hx
      obtain ⟨j, -, rfl⟩ := List.mem_map.mp hx
      obtain rfl := opc_eq_of_commandWord_eq hmac
      exact absurd ho (by decide)

/-- Settles O5: the list is counted, its words are told apart by their fields, and it holds what decodes. -/
theorem exactlyTheListedWordsAreLegal : Obligations.ExactlyTheListedWordsAreLegal :=
  ⟨by simp [legalWords], legalWords_nodup, fun _ _ => exists_decode_iff.trans mem_legalWords_iff_encode.symm⟩

end Sys2Proof
end

section
/-! PROOFS. What the host hands over: the words of the pseudo-instructions, a command, a message (`30_encoding.md` R71,
R82 to R84). -/

namespace Sys2Proof.Machine

/-- The two fields of a command word do not overlap, so the or is a sum (R72). -/
theorem commandWord_eq_add (opc arg : BitVec 8) :
    commandWord opc arg = opc.zeroExtend 32 <<< 24 + arg.zeroExtend 32 := by
  refine (BitVec.add_eq_or_of_and_eq_zero _ _ ?_).symm
  ext i hi
  rcases Nat.lt_or_ge i 24 with h | h
  · simp [h]
  · simp [BitVec.getLsbD_of_ge arg i (by omega)]

/-- A word whose operand byte is a number below 256 is the opcode's word plus that number (R72). -/
theorem commandWord_ofNat (opc : BitVec 8) {n : Nat} (h : n < 256) :
    commandWord opc (BitVec.ofNat 8 n) = commandWord opc 0 + BitVec.ofNat 32 n := by
  have harg : (BitVec.ofNat 8 n).zeroExtend 32 = BitVec.ofNat 32 n := by
    apply BitVec.eq_of_toNat_eq
    simp [Nat.mod_eq_of_lt h]
  rw [commandWord_eq_add, commandWord_eq_add, harg]
  simp

theorem issue_mac {tl : Nat} (h : tl < 256) : issue (.mac tl) = .command (0x11000000 + BitVec.ofNat 32 tl) 0 := by
  have hword : commandWord 0x11 0 = 0x11000000 := by decide
  rw [issue, encode, commandWord_ofNat _ h, hword]

/-- Settles O8: with their indices fixed the words are constants, all but the MAC of MACN. -/
theorem pseudoInstructionsExpand : Obligations.PseudoInstructionsExpand := by
  refine ⟨fun w0 w1 w2 w3 => ⟨rfl, rfl, rfl, rfl⟩, fun tl n htl => ?_, rfl, rfl⟩
  rw [ScriptLine.moves, issue_mac htl]
  rfl

/-- Settles O9: the idle engine takes the word, and a word that decodes is executed. -/
theorem stepRunsTheDecodedCommand : Obligations.StepRunsTheDecodedCommand := by
  intro s cw w rest i hidle hhost hdec
  rw [step_command hidle hhost, runCommand_ok _ hdec]

/-- A placed message is read back from offset 0 on, and nothing beyond it (R50, R84). -/
theorem readByte_placeMessage {bs : List Byte} (h : bs.length ≤ Config.msgSpace) (a : Nat) :
    readByte (placeMessage bs) a = bs[a]? := by
  rw [placeMessage, List.take_of_length_le h, readByte_cellsFrom]
  simp

/-- Settles O12: the step changes the message space, the host's moves and the response alone. -/
theorem placedMessageIsReadBack : Obligations.PlacedMessageIsReadBack := by
  intro s bs rest hidle hhost hlen
  exact ⟨_, step_message hidle hhost, readByte_placeMessage hlen, ⟨rfl, rfl, rfl⟩, rfl, rfl, rfl,
    ⟨rfl, rfl, rfl, rfl, rfl⟩, rfl, rfl, rfl⟩

end Sys2Proof.Machine
end

section
/-! PROOFS. A MAC in progress runs to its end from every phase (`30_encoding.md` R71, `41_mac_compressor.md` R115). -/

namespace Sys2Proof.Machine

/-- The phases end with EMIT from a state that has the TLAT and the host's moves of s. -/
def EmitsFrom (s : State) (r : Result) : Prop :=
  ∃ u : State, r = .next (emitPhase u) ∧ u.tlat = s.tlat ∧ u.host = s.host

/-- From FINAL on: the last block is below MLEN, so a readable message holds it (R113). -/
theorem emitsFrom_final (fuel : Nat) {s : State} {m : List Byte} (hph : s.ph = .final) (hm : messageIs s m)
    (hpos : s.pos.toNat = foff s.mlen.toNat) : EmitsFrom s (runPhases (fuel + 2) s) := by
  obtain ⟨bs, hbs, -, -⟩ := final_is_last hm hpos
  exact ⟨_, runPhases_from_final fuel hph hbs, rfl, rfl⟩

/-- From ABSORB on: POS is at block j, and NNF - j rounds of the loop lead to FINAL (R112). -/
theorem emitsFrom_absorb {s : State} {m : List Byte} (hs : PhaseInv s) (hph : s.ph = .absorb) (hm : messageIs s m) :
    EmitsFrom s (runPhases (phaseBound s) s) := by
  obtain ⟨j, hj⟩ := Nat.dvd_of_mod_eq_zero hs.aligned
  have hwithin := hs.within
  rw [foff_eq] at hwithin
  have hbounds := nnf_bounds s.mlen.toNat
  obtain ⟨blk, pos, hpos, hrun⟩ := runPhases_loop (nnf s.mlen.toNat - j) j
    (remaining s / 16 - (nnf s.mlen.toNat - j) + 2) s m hph hm hj (by omega)
  have hfuel : phaseBound s =
      remaining s / 16 - (nnf s.mlen.toNat - j) + 2 + (nnf s.mlen.toNat - j) + 1 := by
    simp only [phaseBound, remaining, Config.blockBytes]
    omega
  rw [hfuel, hrun]
  exact emitsFrom_final _ rfl hm hpos

/-- A MAC in progress over a readable message ends with EMIT, whatever its phase (R115). -/
theorem emitsFrom_busy {s : State} (hs : PhaseInv s) (hbusy : s.ph ≠ .idle) (hm : messageReadable s) :
    EmitsFrom s (runPhases (phaseBound s) s) := by
  obtain ⟨m, hm⟩ := (messageReadable_iff s).mp hm
  cases hph : s.ph with
  | idle => exact absurd hph hbusy
  | absorb => exact emitsFrom_absorb hs hph hm
  | final => exact emitsFrom_final _ hph hm (hs.absorbed (.inl hph))
  | emit => exact ⟨s, runPhases_emit _ hph, rfl, rfl⟩

/-- Settles O39: EMIT leaves the engine idle and cleared with the tag valid, and the command responds OK. -/
theorem macInProgressRunsToCompletion : Obligations.MacInProgressRunsToCompletion := by
  intro s hs hbusy hm
  obtain ⟨u, hrun, htlat, hhost⟩ := emitsFrom_busy hs hbusy hm
  refine ⟨{ emitPhase u with response := some ⟨0, 0⟩ }, ?_, rfl, rfl, rfl, rfl, rfl, htlat, rfl, hhost⟩
  rw [step_busy hbusy, completeMac, hrun, andThen_next, respondOk_eq]

end Sys2Proof.Machine
end

section
/-! PROOFS. DOUBLE on the 128-bit value, and DERIVE (`40_subkey_deriver.md` R90 to R95). -/

namespace Sys2Proof.Machine

/-- The 128-bit form of DOUBLE (R91): a left shift by one, then the reduction where the top bit was set. -/
def doubleBits (v : BitVec 128) : BitVec 128 := (v <<< 1) ^^^ (if v.msb then 0x87 else 0)

/-- The shift of DOUBLE without its reduction, word by word (R90). -/
def shiftQuad (x : Quad) : Quad :=
  ⟨x.w0 <<< 1, (x.w1 <<< 1) ||| (x.w0 >>> 31), (x.w2 <<< 1) ||| (x.w1 >>> 31), (x.w3 <<< 1) ||| (x.w2 >>> 31)⟩

/-- The top bit of the word below is carried into bit 0 (R90). -/
theorem shiftCarry_getLsbD (a b : Word) (i : Nat) : ((a <<< 1) ||| (b >>> 31)).getLsbD i =
    if i = 0 then b.getLsbD 31 else decide (i < 32) && a.getLsbD (i - 1) := by
  cases i with
  | zero => simp
  | succ n => simp [BitVec.getLsbD_of_ge b (31 + (n + 1)) (by omega)]

/-- Bits 32, 64 and 96 are the three carries; every other bit comes from the bit below it in its own word. -/
theorem value128_shiftQuad (x : Quad) : value128 (shiftQuad x) = value128 x <<< 1 := by
  apply BitVec.eq_of_getLsbD_eq
  intro i hi
  simp only [BitVec.getLsbD_shiftLeft, value128_getLsbD, shiftQuad, shiftCarry_getLsbD]
  obtain rfl | rfl | rfl | ⟨h32, h64, h96⟩ : i = 32 ∨ i = 64 ∨ i = 96 ∨ i ≠ 32 ∧ i ≠ 64 ∧ i ≠ 96 := by omega
  · simp
  · simp
  · simp
  · grind

/-- An exclusive or on the least-significant word is one on the 128-bit value (R10, R11). -/
theorem value128_xor_w0 (x : Quad) (c : Word) :
    value128 { x with w0 := x.w0 ^^^ c } = value128 x ^^^ c.zeroExtend 128 := by
  apply BitVec.eq_of_getLsbD_eq
  intro i hi
  simp only [BitVec.getLsbD_xor, value128_getLsbD, BitVec.zeroExtend, BitVec.getLsbD_setWidth]
  by_cases h : i < 32
  · simp [h, hi]
  · simp [h, BitVec.getLsbD_of_ge c i (by omega)]

theorem value128_msb (x : Quad) : (value128 x).msb = x.w3.msb := by
  rw [BitVec.msb_eq_getLsbD_last, BitVec.msb_eq_getLsbD_last, value128_getLsbD]
  rfl

/-- DOUBLE's test of the top bit (R90). -/
theorem ushiftRight_31_eq_one_iff (w : Word) : w >>> 31 = 1 ↔ w.msb = true := by
  have hlt : w.toNat < 2 ^ 32 := w.isLt
  have hdiv : (w >>> 31).toNat = w.toNat / 2 ^ 31 := by rw [BitVec.toNat_ushiftRight, Nat.shiftRight_eq_div_pow]
  have hone : (1 : Word).toNat = 1 := rfl
  rw [BitVec.msb_eq_decide, decide_eq_true_iff, ← BitVec.toNat_inj, hdiv, hone]
  omega

theorem double_eq_shiftQuad (x : Quad) : double x =
    { shiftQuad x with w0 := (shiftQuad x).w0 ^^^ (if x.w3.msb then Config.cred else 0) } := by
  simp only [double, shiftQuad, ushiftRight_31_eq_one_iff]

theorem value128_double (x : Quad) : value128 (double x) = doubleBits (value128 x) := by
  rw [double_eq_shiftQuad, value128_xor_w0, value128_shiftQuad, doubleBits, value128_msb]
  split <;> rfl

/-- The shift clears bit 0 and the constant 0x87 is odd, so the top bit of v is found again in bit 0 (R92). -/
theorem doubleBits_getLsbD_zero (v : BitVec 128) : (doubleBits v).getLsbD 0 = v.msb := by
  cases h : v.msb <;> simp [doubleBits, h]

/-- Values with the same top bit and the same shift are equal: the top bit is all the shift drops. -/
theorem eq_of_msb_eq_of_shiftLeft_one_eq {v w : BitVec 128} (hmsb : v.msb = w.msb) (h : v <<< 1 = w <<< 1) : v = w := by
  ext i hi
  by_cases htop : i = 127
  · subst htop
    simpa [BitVec.msb_eq_getLsbD_last] using hmsb
  · have hbit := congrArg (BitVec.getLsbD · (i + 1)) h
    simpa [show i + 1 < 128 by omega] using hbit

theorem doubleBits_injective : Function.Injective doubleBits := by
  intro v w h
  have hmsb : v.msb = w.msb := by rw [← doubleBits_getLsbD_zero, h, doubleBits_getLsbD_zero]
  rw [doubleBits, doubleBits, hmsb, BitVec.xor_left_inj] at h
  exact eq_of_msb_eq_of_shiftLeft_one_eq hmsb h

/-- Settles O27: the top bit is set where the value is at least 2^127. -/
theorem doubleIsShiftAndReduce : Obligations.DoubleIsShiftAndReduce := by
  intro x
  rw [value128_double, doubleBits, BitVec.msb_eq_decide]
  simp only [decide_eq_true_eq]
  rfl

/-- Settles O28: on the 128-bit value the top bit, and with it the reduction, can be read off the double. -/
theorem doubleIsInjective : Obligations.DoubleIsInjective := by
  intro x y h
  apply value128_inj
  apply doubleBits_injective
  rw [← value128_double, h, value128_double]

/-- Settles O26: the completion of DERIVE changes K1, K2, SKD and the response alone. -/
theorem deriveComputesBothSubkeys : Obligations.DeriveComputesBothSubkeys := by
  refine ⟨by decide, decode_encode (i := .derive) rfl, fun s => ⟨_, Completion.derive.exec_eq, ?_⟩⟩
  exact ⟨rfl, rfl, rfl, rfl, rfl, rfl, rfl, rfl, rfl, rfl, ⟨rfl, rfl, rfl, rfl, rfl⟩, ⟨fun _ => rfl, rfl, rfl, rfl⟩⟩

end Sys2Proof.Machine
end

section
/-! PROOFS. The partition of a message and its last block, raw or padded (`41_mac_compressor.md` R101 to R104). -/

namespace Sys2Proof.Machine

/-- RLAST counts the bytes of the last block from 1 to 16, and is 0 for the empty message alone (R101). -/
theorem rlast_eq (n : Nat) : rlast n = if n = 0 then 0 else (n - 1) % 16 + 1 := by
  unfold rlast foff nnf Config.blockBytes
  split <;> omega

theorem foff_add_rlast (n : Nat) : foff n + rlast n = n := by
  have hbounds := nnf_bounds n
  rw [rlast, foff_eq]
  omega

theorem rlast_le (n : Nat) : rlast n ≤ 16 := (nnf_bounds n).2.1

/-- A full last block is that of a message of whole blocks, the empty one excepted (R101). -/
theorem rlast_eq_blockBytes_iff (n : Nat) : rlast n = Config.blockBytes ↔ 0 < n ∧ n % 16 = 0 := by
  rw [rlast_eq, Config.blockBytes]
  split <;> omega

/-- Settles O40: the sum and the bound are those of NNF, the rest is read off RLAST's closed form. -/
theorem messagePartition : Obligations.MessagePartition := by
  refine ⟨fun n => ⟨foff_add_rlast n, rlast_le n, ?_, rlast_eq_blockBytes_iff n, ?_⟩, rfl, rfl, rfl⟩
  · rw [rlast_eq]
    split <;> omega
  · rw [rlast_eq]
    split <;> omega

theorem padded_length {bs : List Byte} (h : bs.length ≤ 15) : (padded bs).length = 16 := by
  simp [padded, Config.blockBytes]
  omega

/-- A padded block byte by byte: its own bytes, 0x01, then 0x00 (R104). -/
theorem padded_getElem? {bs : List Byte} {j : Nat} (hj : j < 16) : (padded bs)[j]? =
    if j < bs.length then bs[j]? else if j = bs.length then some 0x01 else some 0x00 := by
  rw [padded, List.getElem?_append]
  obtain hlt | rfl | hgt := Nat.lt_trichotomy j bs.length
  · simp [hlt]
  · simp [Config.padByte]
  · obtain ⟨d, rfl⟩ := Nat.exists_eq_add_of_lt hgt
    simp [Config.blockBytes, show bs.length + d + 1 - bs.length = d + 1 by omega, show d < 15 - bs.length by omega,
      show ¬ bs.length + d + 1 < bs.length by omega, show ¬ bs.length + d + 1 = bs.length by omega]

theorem lastBlock_of_full {m : List Byte} (h : rlast m.length = 16) : lastBlock m = m.drop (foff m.length) := if_pos h

theorem lastBlock_of_partial {m : List Byte} (h : rlast m.length ≠ 16) :
    lastBlock m = padded (m.drop (foff m.length)) := if_neg h

/-- Settles O41: a full last block holds RLAST = 16 raw bytes, any other is padded from RLAST on. -/
theorem lastBlockIsRawOrPadded : Obligations.LastBlockIsRawOrPadded := by
  intro m
  have hlen : (m.drop (foff m.length)).length = rlast m.length := List.length_drop
  by_cases hfull : rlast m.length = 16
  · rw [lastBlock_of_full hfull]
    refine ⟨hlen.trans hfull, fun j hj => ?_⟩
    rw [if_pos (hfull ▸ hj), List.getElem?_drop]
  · have hle := rlast_le m.length
    rw [lastBlock_of_partial hfull]
    refine ⟨padded_length (by omega), fun j hj => ?_⟩
    rw [padded_getElem? hj, hlen, List.getElem?_drop]

/-- The 0x01 that ends the longer string stands where the padding of the shorter one is 0x00. -/
theorem length_le_of_padded_eq {a b : List Byte} (hb : b.length ≤ 15) (h : padded a = padded b) :
    b.length ≤ a.length := by
  by_contra hlt
  have hbyte := congrArg (·[b.length]?) h
  simp [padded_getElem? (show b.length < 16 by omega), show ¬ b.length < a.length by omega,
    show b.length ≠ a.length by omega] at hbyte

/-- Settles O42: equal padded blocks give equal lengths, and what precedes the padding is equal. -/
theorem paddingIsInjective : Obligations.PaddingIsInjective := by
  intro a b ha hb h
  have hlen : a.length = b.length :=
    Nat.le_antisymm (length_le_of_padded_eq ha h.symm) (length_le_of_padded_eq hb h)
  exact List.append_inj_left h hlen

end Sys2Proof.Machine
end

section
/-! PROOFS. The control table of the phases, row by row, and the ABSORB loop (`10_state.md` R36,
`41_mac_compressor.md` R112, R115, R117). -/

namespace Sys2Proof.Machine

/-- `PhaseRow s t`: the phase of s leads to t, one constructor a row of R115 (that of IDLE holds the state). The values
of BLK and V play no part in the sequencing. -/
inductive PhaseRow (s : State) : State → Prop
  | idle (hph : s.ph = .idle) : PhaseRow s s
  | block (hph : s.ph = .absorb) (hrem : remaining s > 16) (blk : Block) (v : Quad) :
      PhaseRow s { s with blk := blk, v := v, pos := s.pos + 16, ph := .absorb }
  | done (hph : s.ph = .absorb) (hrem : ¬ remaining s > 16) : PhaseRow s { s with ph := .final }
  | final (hph : s.ph = .final) (blk : Block) (v : Quad) : PhaseRow s { s with blk := blk, v := v, ph := .emit }
  | emit (hph : s.ph = .emit) : PhaseRow s (emitPhase s)

theorem absorbPhase_row {s t : State} (hph : s.ph = .absorb) (h : absorbPhase s = .next t) : PhaseRow s t := by
  by_cases hrem : remaining s > 16
  · cases hread : memRead s.msg s.pos.toNat 16 with
    | none => cases (absorbPhase_missing hrem hread).symm.trans h
    | some bs =>
      cases (absorbPhase_block hrem hread).symm.trans h
      exact .block hph hrem _ _
  · cases (absorbPhase_done hrem).symm.trans h
    exact .done hph hrem

theorem finalPhase_row {s t : State} (hph : s.ph = .final) (h : finalPhase s = .next t) : PhaseRow s t := by
  cases hread : memRead s.msg s.pos.toNat (remaining s) with
  | none => cases (finalPhase_none hread).symm.trans h
  | some bs =>
    cases (finalPhase_some hread).symm.trans h
    exact .final hph _ _

/-- Every phase that goes on follows a row of the table. -/
theorem phaseStep_row {s t : State} (h : phaseStep s = .next t) : PhaseRow s t := by
  cases hph : s.ph with
  | idle =>
    simp only [phaseStep, hph] at h
    cases h
    exact .idle hph
  | absorb =>
    simp only [phaseStep, hph] at h
    exact absorbPhase_row hph h
  | final =>
    simp only [phaseStep, hph] at h
    exact finalPhase_row hph h
  | emit =>
    simp only [phaseStep, hph] at h
    cases h
    exact .emit hph

/-- A non-final block ends below 2^32, so POS + 16 does not wrap (R112). -/
theorem pos_add_16_of_remaining {s : State} (hrem : remaining s > 16) : (s.pos + 16).toNat = s.pos.toNat + 16 := by
  have hmlen := s.mlen.isLt
  rw [remaining] at hrem
  simp
  omega

/-- At a multiple of 16 more than a block remains exactly below FOFF (R103, R112). -/
theorem remaining_gt_iff {s : State} (haligned : s.pos.toNat % 16 = 0) :
    remaining s > 16 ↔ s.pos.toNat < foff s.mlen.toNat := by
  obtain ⟨j, hj⟩ := Nat.dvd_of_mod_eq_zero haligned
  rw [remaining, foff_eq, hj, nonFinal_iff]
  omega

theorem phaseInv_initPhase (tl : Nat) (s : State) : PhaseInv (initPhase tl s) where
  aligned := rfl
  within := Nat.zero_le _
  idle := nofun
  absorbed := nofun

/-- Each row keeps the invariant: a block below FOFF ends at or below it, and where none is left POS is FOFF. -/
theorem PhaseRow.keeps_inv {s t : State} (hrow : PhaseRow s t) (hs : PhaseInv s) : PhaseInv t := by
  obtain ⟨haligned, hwithin, hidle, habsorbed⟩ := hs
  cases hrow with
  | idle hph => exact ⟨haligned, hwithin, hidle, habsorbed⟩
  | block hph hrem blk v =>
    have hpos := pos_add_16_of_remaining hrem
    have hlt := (remaining_gt_iff haligned).mp hrem
    rw [foff_eq] at hlt
    refine ⟨?_, ?_, nofun, nofun⟩
    · dsimp only
      omega
    · dsimp only
      rw [foff_eq]
      omega
  | done hph hrem =>
    rw [remaining_gt_iff haligned] at hrem
    exact ⟨haligned, hwithin, nofun, fun _ => Nat.le_antisymm hwithin (Nat.not_lt.mp hrem)⟩
  | final hph blk v => exact ⟨haligned, hwithin, nofun, fun _ => habsorbed (.inl hph)⟩
  | emit hph => exact ⟨rfl, Nat.zero_le _, fun _ => rfl, nofun⟩

/-- Settles O38: INIT meets the invariant, and a phase that goes on follows one row of the table. -/
theorem phasesKeepTheSequencingInvariant : Obligations.PhasesKeepTheSequencingInvariant := by
  refine ⟨fun s tl => phaseInv_initPhase tl s, fun s t hs h => (phaseStep_row h).keeps_inv hs, fun s t _ h => ?_⟩
  cases phaseStep_row h with
  | idle hph => simp [hph]
  | block hph hrem blk v =>
    have hnext := pos_add_16_of_remaining hrem
    exact ⟨by simp [hph], fun _ _ => ⟨rfl, hnext⟩, fun _ hle => absurd hrem (Nat.not_lt.mpr hle), by simp [hph],
      by simp [hph]⟩
  | done hph hrem => simp [hph, hrem]
  | final hph blk v => simp [hph]
  | emit hph => simp [hph]

/-- The state of a MAC with n blocks of m absorbed, s the state INIT left (R112). -/
def absorbed (s : State) (m : List Byte) (n : Nat) (blk : Block) : State :=
  { s with
    v := absorbBlocks s.nrounds m s.k n
    blk := blk
    pos := BitVec.ofNat 32 (16 * n)
    ph := .absorb }

theorem absorbed_pos {s : State} {m : List Byte} {n : Nat} {blk : Block} (hn : n ≤ nnf s.mlen.toNat) :
    (absorbed s m n blk).pos.toNat = 16 * n := by
  have hbounds := nnf_bounds s.mlen.toNat
  have hmlen := s.mlen.isLt
  simp only [absorbed, BitVec.toNat_ofNat]
  omega

theorem absorbed_remaining {s : State} {m : List Byte} {n : Nat} {blk : Block} (hn : n ≤ nnf s.mlen.toNat) :
    remaining (absorbed s m n blk) = s.mlen.toNat - 16 * n := by
  rw [remaining, absorbed_pos hn]
  rfl

/-- ABSORB at a non-final block absorbs that block (R112). -/
theorem absorbPhase_absorbed {s : State} {m : List Byte} {n : Nat} {blk : Block} (hm : messageIs s m)
    (hn : n < nnf s.mlen.toNat) :
    absorbPhase (absorbed s m n blk) = .next (absorbed s m (n + 1) (messageBlock m n)) := by
  have hmore : s.mlen.toNat - 16 * n > 16 := (nonFinal_iff _ _).mpr hn
  have hread : memRead s.msg (absorbed s m n blk).pos.toNat 16 = some ((m.drop (16 * n)).take 16) := by
    rw [absorbed_pos hn.le]
    exact memRead_message hm (by omega)
  have hpos : BitVec.ofNat 32 (16 * n) + 16 = BitVec.ofNat 32 (16 * (n + 1)) := (BitVec.ofNat_add _ _).symm
  rw [absorbPhase_block (by rwa [absorbed_remaining hn.le]) hread]
  simp only [absorbed, hpos]
  rfl

/-- n rounds of the loop from block j on, where as many non-final blocks are left (R112, R117). -/
theorem absorbTimes_absorbed {s : State} {m : List Byte} (hm : messageIs s m) (n : Nat) :
    ∀ (j : Nat) (blk : Block), j + n ≤ nnf s.mlen.toNat →
      ∃ blk', absorbTimes n (absorbed s m j blk) = .next (absorbed s m (j + n) blk') := by
  induction n with
  | zero => exact fun j blk _ => ⟨blk, rfl⟩
  | succ n ih =>
    intro j blk hle
    obtain ⟨blk', hrest⟩ := ih (j + 1) (messageBlock m j) (by omega)
    refine ⟨blk', ?_⟩
    rw [absorbTimes, absorbPhase_absorbed hm (by omega), andThen_next, hrest, Nat.add_right_comm, Nat.add_assoc]

/-- Settles O37: INIT leaves no block absorbed, and the loop leaves n of them. -/
theorem absorbLoopRunsOncePerNonFinalBlock : Obligations.AbsorbLoopRunsOncePerNonFinalBlock := by
  intro s tl n m hm hn
  obtain ⟨blk, hrun⟩ := absorbTimes_absorbed (s := initPhase tl s) hm n 0 s.blk (by simpa using hn)
  rw [Nat.zero_add] at hrun
  have hpos : (absorbed (initPhase tl s) m n blk).pos.toNat = 16 * n := absorbed_pos hn
  have hrem : remaining (absorbed (initPhase tl s) m n blk) = s.mlen.toNat - 16 * n := absorbed_remaining hn
  have hmore : remaining (absorbed (initPhase tl s) m n blk) > 16 ↔ n < nnf s.mlen.toNat := by
    rw [hrem, nonFinal_iff]
  refine ⟨_, hrun, rfl, hpos, rfl, hmore, ?_⟩
  rintro rfl
  exact ⟨hpos, hrem, absorbPhase_done (by simp [hmore])⟩

end Sys2Proof.Machine
end

section
/-! PROOFS. The MAC as the function MACF of its inputs: its tag, the subkey it uses, its determinism and the
truncation law (`41_mac_compressor.md` R100, R105, R109, R110, R116, R118). -/

namespace Sys2Proof.Machine

/-- Settles O35: the computed MAC sets exactly what EMIT and the response set. -/
theorem macComputesTheWholeFunction : Obligations.MacComputesTheWholeFunction := by
  intro s tl m htl hm
  have htag : (afterMac s (BitVec.ofNat 5 tl) m).tag = keepFirst tl (bytes (macState s.nrounds m s.k s.k1 s.k2)) := by
    rw [afterMac, tagLength_toNat htl]
  exact ⟨_, exec_mac_computes htl hm, Prod.ext htag rfl, rfl, rfl, rfl, rfl, ⟨rfl, rfl, rfl⟩, rfl, rfl, rfl, rfl, rfl,
    tagLength_toNat htl, ⟨fun _ => rfl, rfl, rfl, rfl⟩⟩

/-- Over whole blocks R116's function takes K1 and no other subkey (R105). -/
theorem macState_of_full {m : List Byte} (h : 0 < m.length ∧ m.length % 16 = 0) (rounds : Nat) (k k1 k2 x : Quad) :
    macState rounds m k k1 x = macState rounds m k k1 k2 := by
  simp only [macState, selectSubkey, if_pos ((rlast_eq_blockBytes_iff _).mpr h)]

/-- Over a partial last block, the empty one included, it takes K2 and no other subkey (R105). -/
theorem macState_of_partial {m : List Byte} (h : ¬ (0 < m.length ∧ m.length % 16 = 0)) (rounds : Nat)
    (k k1 k2 x : Quad) : macState rounds m k x k2 = macState rounds m k k1 k2 := by
  simp only [macState, selectSubkey, if_neg (mt (rlast_eq_blockBytes_iff _).mp h)]

/-- Settles O43: a rejected MAC reads no subkey, a computed one reads the one its length selects. -/
theorem macUsesOneSubkeyByTheLength : Obligations.MacUsesOneSubkeyByTheLength := by
  intro s t tl x h
  simp only [exec_eq_next_iff] at h ⊢
  cases h with
  | read hd => cases hd
  | macRejected htl => exact ⟨fun _ => .macRejected htl, fun _ => .macRejected htl⟩
  | @macComputed _ m htl hm =>
    rw [← messageIs_length hm]
    refine ⟨fun hfull => ?_, fun hpartial => ?_⟩
    · have hcomputed : Completion { s with k2 := x } (.mac tl) _ := .macComputed htl hm
      simpa only [afterMac, State.nrounds, macState_of_full hfull _ s.k s.k1 s.k2 x] using hcomputed
    · have hcomputed : Completion { s with k1 := x } (.mac tl) _ := .macComputed htl hm
      simpa only [afterMac, State.nrounds, macState_of_partial hpartial _ s.k s.k1 s.k2 x] using hcomputed

/-- Settles O45: both engines reject, or both compute over the same message with the same key, subkeys and rounds. -/
theorem macDependsOnlyOnItsInputs : Obligations.MacDependsOnlyOnItsInputs := by
  intro s s' tl t hk hk1 hk2 hmlen hcfg hmsg h
  simp only [exec_eq_next_iff] at h ⊢
  cases h with
  | read hd => cases hd
  | macRejected htl => exact ⟨_, .macRejected htl, rfl, rfl, rfl, rfl⟩
  | macComputed htl hm =>
    refine ⟨_, .macComputed htl ((messageIs_congr hmlen hmsg _).mpr hm), ?_, rfl, rfl, rfl⟩
    simp only [afterMac, State.nrounds, hk, hk1, hk2, hcfg]

/-- The InvalidArgument entry leaves an error recorded, so a second entry finds every flag as it leaves it
(R155, R156). -/
theorem withdrawn_again (st : Status) :
    tagWithdrawn (errRecorded 1 (tagWithdrawn (errRecorded 1 st))) = tagWithdrawn (errRecorded 1 st) := by
  have herr : (tagWithdrawn (errRecorded 1 st)).err ≠ 0 := by
    rw [tagWithdrawn_err, errRecorded_err]
    split
    · decide
    · assumption
  rw [errRecorded, if_neg herr]
  rfl

/-- Settles O46: a MAC leaves its inputs, and what it writes it writes again. -/
theorem repeatedMacGivesTheSameState : Obligations.RepeatedMacGivesTheSameState := by
  intro s t tl h
  simp only [exec_eq_next_iff] at h ⊢
  cases h with
  | read hd => cases hd
  | macRejected htl =>
    have hagain : Completion { s with
        status := tagWithdrawn (errRecorded 1 s.status), tag := Block.zero, response := some ⟨1, 0⟩ } (.mac tl) _ :=
      .macRejected htl
    rwa [withdrawn_again] at hagain
  | macComputed htl hm => exact .macComputed (s := afterMac s _ _) htl hm

/-- Settles O47: both tags are cut from the bytes of one permutation state. -/
theorem shorterTagIsAPrefixOfTheFullTag : Obligations.ShorterTagIsAPrefixOfTheFullTag := by
  intro s u n hn h
  cases exec_eq_next_iff.mp h with
  | read hd => cases hd
  | macRejected htl => exact absurd htl (by decide)
  | macComputed htl hm =>
    refine ⟨_, exec_mac_computes hn hm, tagLength_toNat hn, fun j => ?_⟩
    simp only [afterMac, keepFirst_get, tagLength_toNat hn, tagLength_toNat htl, j.isLt, if_true]

end Sys2Proof.Machine
end

section
/-! PROOFS. The rotation and the round, PERMUTE as a bijection that fixes zero, and what that makes of a MAC over zeros
(`42_permutation.md` R120 to R125, `90_conflicts.md` C7). -/

namespace Sys2Proof.Machine

/-- A bit of ROTL: the low n bits come from the top of the word, every other bit from n places below (R120). -/
theorem rotl_getLsbD (a : Word) {n j : Nat} (hn : n ≤ 32) (hj : j < 32) :
    (rotl a n).getLsbD j = if j < n then a.getLsbD (32 - n + j) else a.getLsbD (j - n) := by
  simp only [rotl, BitVec.getLsbD_or, BitVec.getLsbD_shiftLeft, BitVec.getLsbD_ushiftRight, hj]
  by_cases hlow : j < n
  · simp [hlow]
  · simp [hlow, BitVec.getLsbD_of_ge a (32 - n + j) (by omega)]

/-- Settles O30: a bit that leaves the top of the word comes in again at the bottom. -/
theorem rotlMovesEveryBit : Obligations.RotlMovesEveryBit := by
  intro a n i h1 h31 hi
  rw [rotl_getLsbD a (by omega) (Nat.mod_lt _ (by decide))]
  rcases Nat.lt_or_ge (i + n) 32 with hstay | hwrap
  · rw [Nat.mod_eq_of_lt hstay, if_neg (by omega), Nat.add_sub_cancel]
  · have hmod : (i + n) % 32 = i + n - 32 := by omega
    rw [hmod, if_pos (by omega), show 32 - n + (i + n - 32) = i by omega]

/- The four steps of the round on four words, every later line in terms of the step's inputs (R122). -/
theorem mix01_mk (a b c d : Word) : mix01 ⟨a, b, c, d⟩ = ⟨rotl (a + b) 16, rotl b 5 ^^^ (a + b), c, d⟩ := rfl
theorem mix23_mk (a b c d : Word) : mix23 ⟨a, b, c, d⟩ = ⟨a, b, c + d, rotl d 8 ^^^ (c + d)⟩ := rfl
theorem cross03_mk (a b c d : Word) : cross03 ⟨a, b, c, d⟩ = ⟨a + d, b, c, rotl d 13 ^^^ (a + d)⟩ := rfl
theorem cross21_mk (a b c d : Word) : cross21 ⟨a, b, c, d⟩ = ⟨a, rotl b 7 ^^^ (c + b), rotl (c + b) 16, d⟩ := rfl

/-- Settles O29: the four steps composed. -/
theorem roundHasTheWireForm : Obligations.RoundHasTheWireForm := by
  intro a b c d s0 t1 s2 t3 u0 u3 u2 u1
  rw [arxRound, mix01_mk, mix23_mk, cross03_mk, cross21_mk]

theorem unpermute_permute (n : Nat) (v : Quad) : unpermute n (permute n v) = v := by
  induction n generalizing v with
  | zero => rfl
  | succ n ih => rw [permute, unpermute, ih, unround_arxRound]

theorem permute_unpermute (n : Nat) (v : Quad) : permute n (unpermute n v) = v := by
  induction n with
  | zero => rfl
  | succ n ih => rw [unpermute, permute, arxRound_unround, ih]

/-- Settles O31: round by round, the last round undone first. -/
theorem permuteIsABijection : Obligations.PermuteIsABijection := fun n v =>
  ⟨unpermute_permute n v, permute_unpermute n v⟩

/-- Additions, rotations and exclusive ors of zeros are zero, and the round has no constant (R125(b)). -/
theorem arxRound_zero : arxRound Quad.zero = Quad.zero := by decide

@[simp] theorem permute_zero (n : Nat) : permute n Quad.zero = Quad.zero := by
  induction n with
  | zero => rfl
  | succ n ih => rw [permute, arxRound_zero, ih]

/-- Settles O32: each round fixes zero. -/
theorem permuteFixesZero : Obligations.PermuteFixesZero := permute_zero

/-- A byte beyond the list counts as 0, so zeros make a zero block however many they are. -/
theorem blockOf_zeros (n : Nat) : blockOf (List.replicate n 0) = Block.zero := by
  ext j hj : 1
  simp only [blockOf, Vector.getElem_ofFn, List.getD, List.getElem?_replicate, Block.zero_get]
  split <;> rfl

@[simp] theorem keepFirst_zero (n : Nat) : keepFirst n Block.zero = Block.zero := by
  ext j hj : 1
  simp

theorem messageBlock_zeros (n j : Nat) : messageBlock (List.replicate n 0) j = Block.zero := by
  rw [messageBlock, List.drop_replicate, List.take_replicate, blockOf_zeros]

/-- The last block of whole zero blocks is a zero block: it is raw, so no padding byte stands in it (R104). -/
theorem blockOf_lastBlock_zeros {n : Nat} (h : 0 < n ∧ n % 16 = 0) :
    blockOf (lastBlock (List.replicate n 0)) = Block.zero := by
  have hfull : rlast (List.replicate n (0 : Byte)).length = 16 := by
    rw [List.length_replicate]
    exact (rlast_eq_blockBytes_iff n).mpr h
  rw [lastBlock_of_full hfull, List.drop_replicate, blockOf_zeros]

@[simp] theorem absorbInto_zero (rounds : Nat) : absorbInto rounds Quad.zero Block.zero = Quad.zero := by
  simp [absorbInto]

@[simp] theorem finishInto_zero (rounds : Nat) : finishInto rounds Quad.zero Block.zero Quad.zero = Quad.zero := by
  simp [finishInto]

/-- Zero blocks leave a zero permutation state zero (R106, R125(b)). -/
theorem absorbBlocks_zeros (rounds n count : Nat) :
    absorbBlocks rounds (List.replicate n 0) Quad.zero count = Quad.zero := by
  induction count with
  | zero => rfl
  | succ count ih => rw [absorbBlocks, ih, messageBlock_zeros, absorbInto_zero]

/-- R116's function with the zero key and zero subkeys, over whole zero blocks. -/
theorem macState_zeros (rounds : Nat) {n : Nat} (h : 0 < n ∧ n % 16 = 0) :
    macState rounds (List.replicate n 0) Quad.zero Quad.zero Quad.zero = Quad.zero := by
  rw [macState, absorbBlocks_zeros, blockOf_lastBlock_zeros h, selectSubkey, ite_self, finishInto_zero]

/-- A message space that holds a zero byte at every offset below MLEN is a message of zeros (R51). -/
theorem messageIs_zeros {s : State} (h : ∀ a, a < s.mlen.toNat → readByte s.msg a = some 0) :
    messageIs s (List.replicate s.mlen.toNat 0) := by
  refine (memRead_eq_some_iff _ _ _ _).mpr ⟨List.length_replicate, fun j hj => ?_⟩
  rw [Nat.zero_add, h j hj, List.getElem?_replicate, if_pos hj]

/-- Settles O48: the permutation state stays zero from the key to the tag. -/
theorem zeroKeyZeroMessageTagIsZero : Obligations.ZeroKeyZeroMessageTagIsZero := by
  intro s tl htl hk hk1 hk2 hpos hwhole hzero
  refine ⟨_, exec_mac_computes htl (messageIs_zeros hzero), ?_, rfl, tagLength_toNat htl⟩
  simp only [afterMac, hk, hk1, hk2, macState_zeros _ ⟨hpos, hwhole⟩, bytes_zero, keepFirst_zero]

end Sys2Proof.Machine
end

section
/-! PROOFS. The host access commands, one by one (`43_host_access.md` R130 to R142): the word of each, what it answers
and that it leaves everything else. -/

namespace Sys2Proof.Machine

/-- The index of an X-format command is added to the opcode's word (R74, R82). -/
theorem commandWord_index (opc : BitVec 8) (i : Fin 4) :
    commandWord opc (BitVec.ofNat 8 i.val) = commandWord opc 0 + BitVec.ofNat 32 i.val :=
  commandWord_ofNat opc (by omega)

/-- The word of a command that ignores WDATA decodes to it with every WDATA (R78). -/
theorem decode_of_encode_eq {i : Instr} {cw d : Word} (henc : encode i = (cw, d)) (hwf : i.wellFormed = true)
    (hunused : i.usesWdata = false) (w : Word) : decode cw w = .ok i := by
  have hdec := decode_encode hwf w
  rwa [henc, Instr.withWdata_of_unused hunused] at hdec

/-- A command that only reads answers its readout and changes nothing (R130, R136 to R141). -/
theorem exec_onlyResponds {s : State} {i : Instr} {d : Word} (hd : readout s i = some d) :
    ∃ t, exec i s = .next t ∧ OnlyResponds s t 0 d :=
  ⟨_, exec_of_readout hd,
    { keys := ⟨rfl, rfl, rfl⟩, mlen := rfl, tag := rfl, status := rfl
      hidden := ⟨rfl, rfl, rfl, rfl, rfl⟩, world := ⟨fun _ => rfl, rfl, rfl, rfl⟩, response := rfl }⟩

theorem encode_nop : encode .nop = (0x00000000, 0) := by decide

/-- Settles O16: NOP is a readout of 0. -/
theorem nopChangesNothing : Obligations.NopChangesNothing :=
  ⟨encode_nop, decode_of_encode_eq encode_nop rfl rfl, fun _ => exec_onlyResponds rfl⟩

theorem encode_wrk (i : Fin 4) (w : Word) : encode (.wrk i w) = (0x01000000 + BitVec.ofNat 32 i.val, w) :=
  Prod.ext (commandWord_index 0x01 i) rfl

theorem encode_wrk1 (i : Fin 4) (w : Word) : encode (.wrk1 i w) = (0x02000000 + BitVec.ofNat 32 i.val, w) :=
  Prod.ext (commandWord_index 0x02 i) rfl

theorem encode_wrk2 (i : Fin 4) (w : Word) : encode (.wrk2 i w) = (0x03000000 + BitVec.ofNat 32 i.val, w) :=
  Prod.ext (commandWord_index 0x03 i) rfl

/-- Settles O17: the completion of WRK changes one word of K, SKD and the response alone. -/
theorem wrkWritesOneKeyWord : Obligations.WrkWritesOneKeyWord := by
  refine fun s i w => ⟨encode_wrk i w, _, (Completion.wrk i w).exec_eq, wordAt_withWord s.k w i, ?_⟩
  exact ⟨rfl, rfl, rfl, rfl, rfl, rfl, rfl, rfl, rfl, ⟨rfl, rfl, rfl, rfl, rfl⟩, ⟨fun _ => rfl, rfl, rfl, rfl⟩⟩

/-- Settles O18: the completions of WRK1 and WRK2 change one word of their bank, SKD and the response alone. -/
theorem wrk1AndWrk2WriteOneSubkeyWord : Obligations.Wrk1AndWrk2WriteOneSubkeyWord := by
  refine fun s i w => ⟨encode_wrk1 i w, encode_wrk2 i w, ?_, ?_⟩
  · refine ⟨_, (Completion.wrk1 i w).exec_eq, wordAt_withWord s.k1 w i, ?_⟩
    exact ⟨rfl, rfl, rfl, rfl, rfl, rfl, rfl, rfl, rfl, ⟨rfl, rfl, rfl, rfl, rfl⟩, ⟨fun _ => rfl, rfl, rfl, rfl⟩⟩
  · refine ⟨_, (Completion.wrk2 i w).exec_eq, wordAt_withWord s.k2 w i, ?_⟩
    exact ⟨rfl, rfl, rfl, rfl, rfl, rfl, rfl, rfl, rfl, ⟨rfl, rfl, rfl, rfl, rfl⟩, ⟨fun _ => rfl, rfl, rfl, rfl⟩⟩

/-- Settles O19: the completion of WRLEN changes MLEN and the response alone. -/
theorem wrlenDeclaresTheLength : Obligations.WrlenDeclaresTheLength := by
  have hword : commandWord 0x04 0 = 0x04000000 := by decide
  refine fun s n => ⟨Prod.ext hword rfl, _, (Completion.wrlen n).exec_eq, rfl, rfl, ?_⟩
  exact ⟨⟨rfl, rfl, rfl⟩, rfl, rfl, ⟨rfl, rfl, rfl, rfl, rfl⟩, ⟨fun _ => rfl, rfl, rfl, rfl⟩⟩

theorem encode_rdk1 (i : Fin 4) : encode (.rdk1 i) = (0x08000000 + BitVec.ofNat 32 i.val, 0) :=
  Prod.ext (commandWord_index 0x08 i) rfl

theorem encode_rdk2 (i : Fin 4) : encode (.rdk2 i) = (0x09000000 + BitVec.ofNat 32 i.val, 0) :=
  Prod.ext (commandWord_index 0x09 i) rfl

/-- Settles O20: each is a readout of one word of its bank, which SKD plays no part in. -/
theorem rdk1AndRdk2ReturnTheSubkeyWord : Obligations.Rdk1AndRdk2ReturnTheSubkeyWord := fun _ i =>
  ⟨encode_rdk1 i, encode_rdk2 i, decode_of_encode_eq (encode_rdk1 i) rfl rfl,
    decode_of_encode_eq (encode_rdk2 i) rfl rfl, exec_onlyResponds rfl, exec_onlyResponds rfl⟩

theorem encode_rdlen : encode .rdlen = (0x0D000000, 0) := by decide

/-- Settles O24: RDLEN is a readout of MLEN. -/
theorem rdlenReturnsTheLength : Obligations.RdlenReturnsTheLength :=
  ⟨encode_rdlen, decode_of_encode_eq encode_rdlen rfl rfl, fun _ => exec_onlyResponds rfl⟩

theorem encode_clrerr : encode .clrerr = (0x1F000000, 0) := by decide

/-- Settles O25: the completion of CLRERR changes ERR and the response alone. -/
theorem clrerrClearsOnlyTheErrorField : Obligations.ClrerrClearsOnlyTheErrorField := by
  refine ⟨encode_clrerr, decode_of_encode_eq encode_clrerr rfl rfl, fun s => ⟨_, Completion.clrerr.exec_eq, ?_⟩⟩
  exact ⟨rfl, rfl, rfl, rfl, rfl, ⟨rfl, rfl, rfl⟩, rfl, rfl, ⟨rfl, rfl, rfl, rfl, rfl⟩, ⟨fun _ => rfl, rfl, rfl, rfl⟩⟩

end Sys2Proof.Machine
end

section
/-! PROOFS. The words RDTAG and RDSTAT return, field by field (`10_state.md` R31, R39, `20_memory.md` R58,
`43_host_access.md` R138, R139). -/

namespace Sys2Proof.Machine

/-- Bits 8j+7 to 8j of word i of a block are its byte 4i + j (R12, R58). -/
theorem extractByte_blockWord (b : Block) (i j : Fin 4) :
    (blockWord b i).extractLsb' (8 * j.val) 8 = b.toList.getD (4 * i.val + j.val) 0 := by
  rw [← byteOf_blockWord, byteOf, BitVec.setWidth_ushiftRight_eq_extractLsb]

@[simp] theorem blockWord_zero (i : Fin 4) : blockWord Block.zero i = 0 := by
  rw [← wordAt_words, words_zero, wordAt_zero]

/-- Between commands TAG is 0x00 at and beyond TLEN (R30, R39). -/
theorem Between.tag_getD {s : State} (hs : Between s) {n : Nat} (hn : n < 16) (hlen : s.status.tlen.toNat ≤ n) :
    s.tag.toList.getD n 0 = 0 := by
  have hbyte := hs.tagBeyond ⟨n, hn⟩ hlen
  simpa [hn] using hbyte

/-- Between commands TAGV = 0 makes TLEN 0 and with it all of TAG zero (R39). -/
theorem Between.tag_zero {s : State} (hs : Between s) (hv : s.status.tagv = false) : s.tag = Block.zero := by
  have hlen := hs.tlenIfNoTag hv
  ext n hn : 1
  rw [Block.zero_get n hn]
  exact hs.tagBeyond ⟨n, hn⟩ (by simp [hlen])

theorem encode_rdtag (i : Fin 4) : encode (.rdtag i) = (0x0A000000 + BitVec.ofNat 32 i.val, 0) :=
  Prod.ext (commandWord_index 0x0A i) rfl

/-- Settles O21: RDTAG is a readout of a word of TAG, and the zero bytes are those of TAG between commands. -/
theorem rdtagReturnsTheTagWord : Obligations.RdtagReturnsTheTagWord := by
  intro s i
  obtain ⟨t, ht, hreads⟩ := exec_onlyResponds (s := s) (i := .rdtag i) rfl
  refine ⟨encode_rdtag i, decode_of_encode_eq (encode_rdtag i) rfl rfl, t, _, ht, hreads,
    extractByte_blockWord s.tag i, fun hs => ⟨fun hv => ?_, fun j hj => ?_⟩⟩
  · rw [hs.tag_zero hv, blockWord_zero]
  · rw [extractByte_blockWord, hs.tag_getD (by omega) hj]

/-- A bit of the word of RDSTAT is a bit of the field it falls in (R139). -/
theorem statusWord_getLsbD (st : Status) {i : Nat} (hi : i < 32) : (statusWord st).getLsbD i =
    if i = 0 then st.tagv else if i = 1 then st.skd else if i < 4 then false
    else if i < 8 then st.err.getLsbD (i - 4) else st.tlen.getLsbD (i - 8) := by
  simp only [statusWord, BitVec.getLsbD_or, BitVec.getLsbD_shiftLeft, BitVec.zeroExtend, BitVec.getLsbD_setWidth,
    BitVec.getLsbD_ofBool]
  rcases Nat.lt_or_ge i 4 with h4 | h4
  · obtain rfl | rfl | h1 : i = 0 ∨ i = 1 ∨ 1 < i := by omega
    · simp
    · simp
    · simp [h4, show i ≠ 0 by omega, show i ≠ 1 by omega, show i - 1 ≠ 0 by omega, show i < 8 by omega]
  · rcases Nat.lt_or_ge i 8 with h8 | h8
    · simp [hi, h8, show i ≠ 0 by omega, show i ≠ 1 by omega, show i - 1 ≠ 0 by omega, show ¬ i < 4 by omega,
        show i - 4 < 32 by omega]
    · simp [hi, show i ≠ 0 by omega, show i ≠ 1 by omega, show i - 1 ≠ 0 by omega, show ¬ i < 4 by omega,
        show ¬ i < 8 by omega, show i - 8 < 32 by omega, BitVec.getLsbD_of_ge st.err (i - 4) (by omega)]

theorem encode_rdstat : encode .rdstat = (0x0B000000, 0) := by decide

/-- Settles O22: RDSTAT is a readout of STATUS, whose fields are read off the word bit by bit. -/
theorem rdstatReturnsTheStatusLayout : Obligations.RdstatReturnsTheStatusLayout := by
  refine ⟨encode_rdstat, decode_of_encode_eq encode_rdstat rfl rfl, fun s => ?_⟩
  obtain ⟨t, ht, hreads⟩ := exec_onlyResponds (s := s) (i := .rdstat) rfl
  refine ⟨t, _, ht, hreads, statusWord_getLsbD s.status (by decide), statusWord_getLsbD s.status (by decide),
    ?_, ?_, ?_, ?_⟩
  all_goals
    apply BitVec.eq_of_getLsbD_eq
    intro j hj
    rw [BitVec.getLsbD_extractLsb', statusWord_getLsbD _ (by omega)]
  · simp [hj, show 2 + j ≠ 1 by omega, show 2 + j < 4 by omega]
  · simp [hj, show 4 + j ≠ 1 by omega, show 4 + j < 8 by omega]
  · simp [hj, show 8 + j ≠ 1 by omega, show ¬ 8 + j < 4 by omega]
  · simp [hj, show 13 + j ≠ 1 by omega, show ¬ 13 + j < 4 by omega, show ¬ 13 + j < 8 by omega,
      BitVec.getLsbD_of_ge s.status.tlen (13 + j - 8) (by omega)]

end Sys2Proof.Machine
end

section
/-! PROOFS. What holds over the phases of a MAC holds over the whole of it, and CFG, which no step changes
(`10_state.md` R33, `41_mac_compressor.md` R115, `43_host_access.md` R140). -/

namespace Sys2Proof.Machine

/-- A sequence that completes went through a next state: a stop in its first part stays a stop. -/
theorem andThen_eq_next {r : Result} {f : State → Result} {t : State} (h : andThen r f = .next t) :
    ∃ u, r = .next u ∧ f u = .next t := by
  cases r with
  | next u => exact ⟨u, rfl, h⟩
  | fault e => cases h
  | refused e => cases h

/-- The phases go on one at a time; the phase of an idle engine holds the state (R115). -/
theorem runPhases_succ (fuel : Nat) (s : State) :
    runPhases (fuel + 1) s = andThen (phaseStep s) (runPhases fuel) := by
  cases hph : s.ph with
  | idle => rw [runPhases_idle _ hph, phaseStep, hph, andThen_next, runPhases_idle _ hph]
  | _ => simp only [runPhases, hph]

/-- The induction over the phases of a MAC: what every row of R115 keeps, the phases keep. -/
theorem runPhases_keeps {P : State → Prop} (hrow : ∀ {s t : State}, PhaseRow s t → P s → P t) (fuel : Nat) :
    ∀ {s t : State}, runPhases fuel s = .next t → P s → P t := by
  induction fuel with
  | zero =>
    intro s t h hs
    cases h
    exact hs
  | succ fuel ih =>
    intro s t h hs
    rw [runPhases_succ] at h
    obtain ⟨u, hphase, hrest⟩ := andThen_eq_next h
    exact ih hrest (hrow (phaseStep_row hphase) hs)

/-- A MAC in progress keeps what every row of R115 and the response keep (R71, R110). -/
theorem completeMac_keeps {P : State → Prop} (hrow : ∀ {s t : State}, PhaseRow s t → P s → P t)
    (hresponse : ∀ {s : State} (r : Response), P s → P { s with response := some r }) {s t : State}
    (h : completeMac s = .next t) (hs : P s) : P t := by
  obtain ⟨u, hrun, hrespond⟩ := andThen_eq_next h
  cases hrespond
  exact hresponse _ (runPhases_keeps hrow _ hrun hs)

theorem PhaseRow.cfg_same {s t : State} (hrow : PhaseRow s t) : t.nroundsPred = s.nroundsPred := by
  cases hrow <;> rfl

theorem completeMac_cfg_same {s t : State} (h : completeMac s = .next t) : t.nroundsPred = s.nroundsPred :=
  completeMac_keeps (P := fun u => u.nroundsPred = s.nroundsPred) (fun hrow => hrow.cfg_same.trans)
    (fun _ hs => hs) h rfl

theorem Completion.cfg_same {s t : State} {i : Instr} (hc : Completion s i t) : t.nroundsPred = s.nroundsPred := by
  cases hc <;> rfl

theorem runCommand_cfg_same {cw wdata : Word} {s t : State} (h : runCommand cw wdata s = .next t) :
    t.nroundsPred = s.nroundsPred := by
  cases hdec : decode cw wdata with
  | ok i =>
    rw [runCommand_ok s hdec] at h
    exact (exec_eq_next_iff.mp h).cfg_same
  | illegal why =>
    cases (runCommand_illegal s hdec).symm.trans h
    rfl

/-- No step changes CFG: neither a MAC in progress nor any of the host's moves, a reset included (R33, R140). -/
theorem step_cfg_same {s t : State} (h : step s = .next t) : t.nroundsPred = s.nroundsPred := by
  by_cases hidle : s.ph = .idle
  · cases hhost : s.host with
    | nil =>
      cases (step_none hidle hhost).symm.trans h
      rfl
    | cons move rest =>
      cases move with
      | command cw wdata =>
        rw [step_command hidle hhost] at h
        exact runCommand_cfg_same (s := { s with host := rest }) h
      | message bs =>
        cases (step_message hidle hhost).symm.trans h
        rfl
      | reset =>
        cases (step_reset hidle hhost).symm.trans h
        rfl
  · rw [step_busy hidle] at h
    exact completeMac_cfg_same h

/-- NROUNDS is 1 to 255 (R7). -/
theorem State.nrounds_bounds (s : State) : 1 ≤ s.nrounds ∧ s.nrounds ≤ 255 := by
  have hlt := s.nroundsPred.isLt
  rw [State.nrounds]
  omega

theorem cfgWord_toNat (s : State) : (cfgWord s).toNat = s.nrounds := by
  have hbounds := s.nrounds_bounds
  rw [cfgWord, BitVec.toNat_ofNat]
  omega

theorem encode_rdcfg : encode .rdcfg = (0x0C000000, 0) := by decide

/-- Settles O23: RDCFG is a readout of CFG, whose number is NROUNDS and so below 256. -/
theorem rdcfgReturnsTheRoundCount : Obligations.RdcfgReturnsTheRoundCount := by
  refine ⟨encode_rdcfg, decode_of_encode_eq encode_rdcfg rfl rfl, fun s => ?_, fun s t h => ?_⟩
  · obtain ⟨t, ht, hreads⟩ := exec_onlyResponds (s := s) (i := .rdcfg) rfl
    have hbounds := s.nrounds_bounds
    refine ⟨t, _, ht, hreads, ?_, BitVec.eq_of_toNat_eq ?_, hbounds⟩
    · rw [BitVec.extractLsb'_toNat, cfgWord_toNat, Nat.shiftRight_zero]
      omega
    · rw [BitVec.extractLsb'_toNat, cfgWord_toNat, Nat.shiftRight_eq_zero _ 8 (Nat.lt_succ_of_le hbounds.2)]
      rfl
  · rw [cfgWord, State.nrounds, step_cfg_same h, cfgWord, State.nrounds]

end Sys2Proof.Machine
end

section
/-! PROOFS. The key is read by DERIVE and MAC alone (`10_state.md` R25, `43_host_access.md` R143). -/

namespace Sys2Proof.Machine

/-- No command that only reads shows K. -/
theorem readout_with_key (s : State) (x : Quad) (i : Instr) : readout { s with k := x } i = readout s i := by
  cases i <;> rfl

/-- Settles O54: the completion with the other key is the same case with the same operands, and carries that key. -/
theorem keyIsReadOnlyByDeriveAndMac : Obligations.KeyIsReadOnlyByDeriveAndMac := by
  intro i s x hderive hmac
  obtain ⟨t, ht⟩ := (exec_completes_iff i s).mpr fun tl h => absurd h (hmac tl)
  refine ⟨t, ?_⟩
  simp only [ht, exec_eq_next_iff, true_and]
  cases exec_eq_next_iff.mp ht with
  | read hd => exact ⟨_, .read ((readout_with_key s x i).trans hd), rfl, rfl⟩
  | wrk j w => exact ⟨_, .wrk j w, rfl, rfl⟩
  | wrk1 j w => exact ⟨_, .wrk1 j w, rfl, rfl⟩
  | wrk2 j w => exact ⟨_, .wrk2 j w, rfl, rfl⟩
  | wrlen n => exact ⟨_, .wrlen n, rfl, rfl⟩
  | derive => exact absurd rfl hderive
  | macRejected htl => exact absurd rfl (hmac _)
  | macComputed htl hm => exact absurd rfl (hmac _)
  | clrerr => exact ⟨_, .clrerr, rfl, rfl⟩

end Sys2Proof.Machine
end

section
/-! PROOFS. The illegal words by their format, and the IllegalCommand entry (`30_encoding.md` R73 to R75, R79, R80,
`60_exceptions.md` R152, R155, R157). -/

namespace Sys2Proof

/-- The opcodes of the Z format (R73, R77). -/
def zOpcodes : List (BitVec 8) := [0x00, 0x04, 0x0B, 0x0C, 0x0D, 0x10, 0x1F]

/-- The opcodes of the X format (R74, R77). -/
def xOpcodes : List (BitVec 8) := [0x01, 0x02, 0x03, 0x08, 0x09, 0x0A]

/-- The opcodes that R80 does not reserve. -/
def usedOpcodes : List (BitVec 8) :=
  [0x00, 0x01, 0x02, 0x03, 0x04, 0x08, 0x09, 0x0A, 0x0B, 0x0C, 0x0D, 0x10, 0x11, 0x1F]

/-- An opcode in use is of one of the three formats (R77). -/
theorem mem_usedOpcodes_iff : ∀ o : BitVec 8, o ∈ usedOpcodes ↔ o ∈ zOpcodes ∨ o ∈ xOpcodes ∨ o = 0x11 := by decide

/-- No opcode is of two formats (R77). -/
theorem opcode_formats_disjoint : ∀ o : BitVec 8,
    (o ∈ zOpcodes → o ∉ xOpcodes ∧ o ≠ 0x11) ∧ (o ∈ xOpcodes → o ≠ 0x11) := by decide

theorem zWord_iff {o : BitVec 8} {cw : Word} :
    commandWord o 0 = cw ↔ mbzField cw = 0 ∧ opcField cw = o ∧ argField cw = 0 := by
  constructor
  · rintro rfl
    simp
  · rintro ⟨hmbz, rfl, harg⟩
    rw [← harg, commandWord_fields hmbz]

theorem xWord_iff {o : BitVec 8} {cw : Word} : (∃ j : Fin 4, commandWord o (BitVec.ofNat 8 j.val) = cw) ↔
    mbzField cw = 0 ∧ opcField cw = o ∧ argHighField cw = 0 := by
  constructor
  · rintro ⟨j, rfl⟩
    rw [argHighField_commandWord, highBits_of_index]
    simp
  · rintro ⟨hmbz, rfl, hhigh⟩
    exact ⟨idxField cw, by rw [← arg_eq_index hmbz hhigh, commandWord_fields hmbz]⟩

theorem tWord_iff {o : BitVec 8} {cw : Word} : (∃ tl < 256, commandWord o (BitVec.ofNat 8 tl) = cw) ↔
    mbzField cw = 0 ∧ opcField cw = o := by
  constructor
  · rintro ⟨tl, -, rfl⟩
    simp
  · rintro ⟨hmbz, rfl⟩
    exact ⟨(argField cw).toNat, (argField cw).isLt, by rw [ofNat_argField, commandWord_fields hmbz]⟩

/-- A word is legal iff its fields are those of one of the three formats (R73 to R75, R79). -/
theorem exists_decode_iff_fields {cw w : Word} : (∃ i, decode cw w = .ok i) ↔ mbzField cw = 0 ∧
    ((opcField cw ∈ zOpcodes ∧ argField cw = 0) ∨ (opcField cw ∈ xOpcodes ∧ argHighField cw = 0) ∨
      opcField cw = 0x11) := by
  rw [exists_decode_iff, ← mem_legalWords_iff_encode, mem_legalWords_iff]
  simp only [zWord_iff, xWord_iff, tWord_iff]
  constructor
  · rintro (⟨_, ho, hmbz, rfl, harg⟩ | ⟨_, ho, hmbz, rfl, hhigh⟩ | ⟨hmbz, ho⟩)
    · exact ⟨hmbz, .inl ⟨ho, harg⟩⟩
    · exact ⟨hmbz, .inr (.inl ⟨ho, hhigh⟩)⟩
    · exact ⟨hmbz, .inr (.inr ho)⟩
  · rintro ⟨hmbz, ⟨ho, harg⟩ | ⟨ho, hhigh⟩ | ho⟩
    · exact .inl ⟨_, ho, hmbz, rfl, harg⟩
    · exact .inr (.inl ⟨_, ho, hmbz, rfl, hhigh⟩)
    · exact .inr (.inr ⟨hmbz, ho⟩)

/-- The decoder is total: a word is illegal iff it is no command (R79). -/
theorem exists_illegal_iff {cw w : Word} : (∃ why, decode cw w = .illegal why) ↔ ¬ ∃ i, decode cw w = .ok i := by
  cases decode cw w with
  | ok i => simp
  | illegal why => simp

/-- Settles O6: of the fields of a legal word one fails, and the formats exclude each other. -/
theorem illegalWordsAreTheFourKinds : Obligations.IllegalWordsAreTheFourKinds := by
  intro cw w
  change _ ↔ (mbzField cw ≠ 0 ∨ opcField cw ∉ usedOpcodes ∨ (opcField cw ∈ zOpcodes ∧ argField cw ≠ 0) ∨
    (opcField cw ∈ xOpcodes ∧ argHighField cw ≠ 0))
  obtain ⟨hz, hx⟩ := opcode_formats_disjoint (opcField cw)
  rw [exists_illegal_iff, exists_decode_iff_fields, mem_usedOpcodes_iff]
  tauto

end Sys2Proof

namespace Sys2Proof.Machine

/-- Settles O10: the entry writes ERR and the response alone. -/
theorem illegalWordRaisesIllegalCommand : Obligations.IllegalWordRaisesIllegalCommand := by
  intro s cw w rest why hidle hhost hdec
  have hstep := (step_command hidle hhost).trans (runCommand_illegal _ hdec)
  exact ⟨_, hstep, errRecorded_err 2 s.status, rfl, ⟨rfl, rfl, rfl⟩, rfl, rfl, errRecorded_tagv 2 s.status,
    errRecorded_skd 2 s.status, errRecorded_tlen 2 s.status, ⟨rfl, rfl, rfl, rfl, rfl⟩, fun _ => rfl, rfl, rfl⟩

/-- Settles O11: MBZ alone makes the word illegal, whatever the opcode and TL are, and an illegal word keeps the tag. -/
theorem illegalCommandWinsOverInvalidArgument : Obligations.IllegalCommandWinsOverInvalidArgument := by
  intro cw w _ _ hmbz s rest hidle hhost
  obtain ⟨why, hdec⟩ := (illegalWordsAreTheFourKinds cw w).mpr (.inl hmbz)
  obtain ⟨t, hstep, -, hresponse, -, -, htag, htagv, -, htlen, -⟩ :=
    illegalWordRaisesIllegalCommand s cw w rest why hidle hhost hdec
  exact ⟨t, hstep, hresponse, htag, htagv, htlen⟩

end Sys2Proof.Machine
end

section
/-! PROOFS. The InvalidArgument entry, and ERR as a log: the first error stays until it is cleared, and it locks nothing
(`10_state.md` R34, `60_exceptions.md` R151, R155, R156, R159, R165). -/

namespace Sys2Proof.Machine

/-- Settles O15: without a move an idle step only drops the response. -/
theorem engineHoldsItsStateWithoutAMove : Obligations.EngineHoldsItsStateWithoutAMove := fun _ => step_none

/-- Settles O34: the entry writes STATUS, TAG and the response, and of STATUS it keeps SKD. -/
theorem macRejectsTagLengthsAboveSixteen : Obligations.MacRejectsTagLengthsAboveSixteen := by
  intro s tl htl
  exact ⟨_, exec_mac_rejected htl, errRecorded_err 1 s.status, fun j => Block.zero_get j j.isLt, rfl, rfl, rfl,
    ⟨rfl, rfl, rfl⟩, rfl, errRecorded_skd 1 s.status, ⟨rfl, rfl, rfl, rfl, rfl⟩, ⟨fun _ => rfl, rfl, rfl, rfl⟩⟩

/-- A recorded error is not overwritten (R155). -/
theorem errRecorded_of_err_ne {c : BitVec 4} {st : Status} (herr : st.err ≠ 0) : errRecorded c st = st :=
  if_neg herr

/-- CLRERR is the one command that changes a recorded error (R34, R159). -/
theorem Completion.err_same_or_clrerr {s t : State} {i : Instr} (hc : Completion s i t) (herr : s.status.err ≠ 0) :
    t.status.err = s.status.err ∨ i = .clrerr := by
  cases hc with
  | macRejected htl => exact .inl (by rw [errRecorded_of_err_ne herr, tagWithdrawn_err])
  | clrerr => exact .inr rfl
  | _ => exact .inl rfl

/-- One word is CLRERR (R77, R79). -/
theorem word_of_decode_clrerr {cw w : Word} (h : decode cw w = .ok .clrerr) : cw = 0x1F000000 := by
  obtain ⟨-, hcw, -⟩ := encode_of_decode h
  rw [← hcw, encode_clrerr]

/-- A command word other than CLRERR keeps a recorded error, illegal words included (R155, R159). -/
theorem runCommand_err_same {cw w : Word} {s t : State} (h : runCommand cw w s = .next t) (herr : s.status.err ≠ 0)
    (hcw : cw ≠ 0x1F000000) : t.status.err = s.status.err := by
  cases hdec : decode cw w with
  | ok i =>
    rw [runCommand_ok s hdec] at h
    refine ((exec_eq_next_iff.mp h).err_same_or_clrerr herr).resolve_right ?_
    rintro rfl
    exact hcw (word_of_decode_clrerr hdec)
  | illegal why =>
    cases (runCommand_illegal s hdec).symm.trans h
    rw [errRecorded_of_err_ne herr]

theorem PhaseRow.err_same {s t : State} (hrow : PhaseRow s t) : t.status.err = s.status.err := by
  cases hrow <;> rfl

/-- A MAC in progress raises no error and clears none (R111 to R114). -/
theorem completeMac_err_same {s t : State} (h : completeMac s = .next t) : t.status.err = s.status.err :=
  completeMac_keeps (P := fun u => u.status.err = s.status.err) (fun hrow => hrow.err_same.trans) (fun _ hs => hs) h rfl

/-- Settles O52, by the host's next move, and by the phases where a MAC is in progress. -/
theorem firstErrorStaysUntilCleared : Obligations.FirstErrorStaysUntilCleared := by
  intro s t h herr hmove
  by_cases hidle : s.ph = .idle
  · cases hhost : s.host with
    | nil =>
      cases (step_none hidle hhost).symm.trans h
      rfl
    | cons move rest =>
      obtain ⟨hreset, hclrerr⟩ := hmove hidle rest
      cases move with
      | command cw w =>
        rw [step_command hidle hhost] at h
        refine runCommand_err_same (s := { s with host := rest }) h herr ?_
        rintro rfl
        exact hclrerr w hhost
      | message bs =>
        cases (step_message hidle hhost).symm.trans h
        rfl
      | reset => exact absurd hhost hreset
  · rw [step_busy hidle] at h
    exact completeMac_err_same h

/-- The state with e in ERR. -/
def State.withErr (s : State) (e : BitVec 4) : State := { s with status := { s.status with err := e } }

/-- Of the commands that only read, RDSTAT alone shows ERR. -/
theorem readout_withErr (s : State) (e : BitVec 4) {i : Instr} (hi : i ≠ .rdstat) :
    readout (s.withErr e) i = readout s i := by
  cases i with
  | rdstat => exact absurd rfl hi
  | _ => rfl

/-- The error entry writes ERR alone (R155). -/
theorem errRecorded_eq (c : BitVec 4) (st : Status) :
    errRecorded c st = { st with err := if st.err = 0 then c else st.err } := by
  unfold errRecorded
  split <;> rfl

/-- A command that only reads does so with any ERR, and responds the same unless it is RDSTAT. -/
theorem read_withErr {s : State} {i : Instr} {d : Word} (hd : readout s i = some d) (e : BitVec 4) :
    ∃ d', readout (s.withErr e) i = some d' ∧ (i ≠ .rdstat → d' = d) := by
  by_cases hi : i = .rdstat
  · subst hi
    exact ⟨_, rfl, absurd rfl⟩
  · exact ⟨d, (readout_withErr s e hi).trans hd, fun _ => rfl⟩

/-- Settles O53: the completion with the other ERR is the same case with the same operands; only a read can respond
otherwise, and only a rejected MAC looks at ERR, to write it alone. -/
theorem errorFieldLocksNothing : Obligations.ErrorFieldLocksNothing := by
  intro i s t e h
  change ∃ t', exec i (s.withErr e) = .next t' ∧ _
  simp only [exec_eq_next_iff] at h ⊢
  cases h with
  | read hd =>
    obtain ⟨d', hd', hsame⟩ := read_withErr hd e
    exact ⟨_, .read hd', fun hi => by rw [hsame hi], rfl⟩
  | wrk j w => exact ⟨_, .wrk j w, fun _ => rfl, rfl⟩
  | wrk1 j w => exact ⟨_, .wrk1 j w, fun _ => rfl, rfl⟩
  | wrk2 j w => exact ⟨_, .wrk2 j w, fun _ => rfl, rfl⟩
  | wrlen n => exact ⟨_, .wrlen n, fun _ => rfl, rfl⟩
  | derive => exact ⟨_, .derive, fun _ => rfl, rfl⟩
  | macRejected htl =>
    refine ⟨_, .macRejected htl, fun _ => rfl, ?_⟩
    simp only [errRecorded_eq]
    rfl
  | macComputed htl hm => exact ⟨_, .macComputed htl hm, fun _ => rfl, rfl⟩
  | clrerr => exact ⟨_, .clrerr, fun _ => rfl, rfl⟩

end Sys2Proof.Machine
end

section
/-! PROOFS. What a reset between commands leaves, and the lifetime of the tag (`10_state.md` R30, R34, R40,
`70_reset_and_hazards.md` R170, R171, R178). -/

namespace Sys2Proof.Machine

/-- A command keeps the tag buffer and its two fields of STATUS, or is a MAC (R30, R178). -/
theorem Completion.tag_same_or_mac {s t : State} {i : Instr} (hc : Completion s i t) :
    (t.tag = s.tag ∧ t.status.tagv = s.status.tagv ∧ t.status.tlen = s.status.tlen) ∨ ∃ tl, i = .mac tl := by
  cases hc with
  | macRejected htl => exact .inr ⟨_, rfl⟩
  | macComputed htl hm => exact .inr ⟨_, rfl⟩
  | _ => exact .inl ⟨rfl, rfl, rfl⟩

/-- Settles O50: a command that is no MAC would keep all three. -/
theorem tagIsWrittenOnlyByMac : Obligations.TagIsWrittenOnlyByMac := by
  intro i s t h hchanged
  refine (exec_eq_next_iff.mp h).tag_same_or_mac.resolve_left ?_
  rintro ⟨htag, htagv, htlen⟩
  obtain hne | hne | hne := hchanged
  · exact hne htag
  · exact hne htagv
  · exact hne htlen

/-- Settles O13: the engine's part of the state a reset leaves is that of the reset state, whose values are R40's. -/
theorem resetRestoresEveryStateElement : Obligations.ResetRestoresEveryStateElement := by
  intro s rest hidle hhost
  obtain ⟨hbanks, hmlen, hbuffers, htagv, hskd, herr, htlen, -, -, hph, hpos, htlat⟩ := resetStateHoldsTheTableValues
  exact ⟨_, step_reset hidle hhost, hbanks, hmlen, hbuffers, htagv, hskd, herr, htlen, hph, hpos, htlat,
    rfl, fun _ => rfl, rfl⟩

end Sys2Proof.Machine
end
